-- ==== Sys2Proof/Word.lean ====
section
/-! DEFINITION. The byte and the bit length, the two plainest notions of the spec's notation section. -/

namespace Sys2Proof

/-- A byte is 8 bits (R11). -/
abbrev Byte := BitVec 8

/-- `bitlen(x)`, the least `k` with `x < 2^k` (R13): ⌊log2 x⌋ + 1 for `x ≥ 1`, and 0 for `x = 0`
(the value at 0 is the spec's own general-knowledge item; log entry 12, PRESUMED). -/
def bitlen (x : Nat) : Nat := if x = 0 then 0 else Nat.log2 x + 1

end Sys2Proof
end

