-- ==== Sys2Proof/Config.lean ====
section
/-! DEFINITION. The implementation parameters (R6 to R10), the widths derived from them, and the free values of the
leaf functions outside their domain (R100, R120). -/

namespace Sys2Proof

/-- The OPEN parameters of a BCU: `PW`, at least 9 (R6), and `IW`, unconstrained (R9). -/
structure Params where
  /-- `PW`, the width of the modulus register, of the integer operand and of the packed integer (R6). -/
  pw : Nat
  /-- `IW`, the width of the block index and of ERR_IDX (R9). -/
  iw : Nat
  /-- `PW >= 9`, so that some modulus with a block of at least one byte is representable (R6). -/
  pw_ge : 9 ≤ pw
  deriving DecidableEq, Repr

/-- `BMAX = (PW - 1) div 8`, the number of byte lanes (R7). -/
def Params.bmax (c : Params) : Nat := (c.pw - 1) / 8

/-- `LW = bitlen(BMAX)`, the width of a byte count (R8). -/
def Params.lw (c : Params) : Nat := bitlen c.bmax

/-- `BLW = bitlen(PW)`, the width of BITLEN (R8). -/
def Params.blw (c : Params) : Nat := bitlen c.pw

/-- `RW = 2 + PW + 8*BMAX + LW + IW`, the width of a request word (R61), written most significant field first. -/
abbrev Params.rw (c : Params) : Nat := c.iw + c.lw + 8 * c.bmax + c.pw + 2

/-- The outputs of the leaf function PACKER (R100). -/
structure PackerOut (c : Params) where
  v : BitVec c.pw
  rangeErr : Bool
  deriving DecidableEq, Repr, Inhabited

/-- The outputs of the leaf function UNPACKER (R120); `q` is the flat bus of its lanes (R62). -/
structure UnpackerOut (c : Params) where
  q : BitVec (8 * c.bmax)
  rangeErr : Bool
  lenErr : Bool
  deriving DecidableEq, Repr, Inhabited

/-- The reference configuration `PW = 32`, `IW = 16` (R10). -/
def Config.reference : Params := ⟨32, 16, by decide⟩

/-- FREE VALUE: what PACKER gives for a count above BMAX, where R100 defines nothing (log entry 9, DESIGN CHOICE).
No register ever holds it. -/
opaque Config.packerOutside (c : Params) (d : BitVec (8 * c.bmax)) (n : Nat) (p : BitVec c.pw) : PackerOut c

/-- FREE VALUE: what UNPACKER gives for a count of 0 or above BMAX, where R120 defines nothing (log entry 9, DESIGN CHOICE).
No register ever holds it. -/
opaque Config.unpackerOutside (c : Params) (m : BitVec c.pw) (w : Nat) (p : BitVec c.pw) : UnpackerOut c

/-- FREE VALUE: the lanes of UNPACKER when `len_err = 1`, which R120 leaves undefined (log entry 9, DESIGN CHOICE).
No register ever holds them. -/
opaque Config.unpackerLanes (c : Params) (m : BitVec c.pw) (w : Nat) (p : BitVec c.pw) : BitVec (8 * c.bmax)

end Sys2Proof
end

