-- ==== Sys2Proof/Syntax.lean ====
section
/-! DEFINITION. The operations of the request port, one constructor for each row of spec/opcode_table.json (R63). -/

namespace Sys2Proof

/-- An operation with the operands it uses (R64), in the order of the assembler (R68). Operands are unsigned
integers (R12, R65); `WellFormed` says when they fit the widths of a configuration. -/
inductive Instr where
  /-- Idle cycle (R86). -/
  | nop
  /-- Load the modulus `p` and start a run (R85). -/
  | cfg (p : Nat)
  /-- Pack the first `n` of the byte lanes, lane 0 first, as block `k` (R105). -/
  | pack (k n : Nat) (lanes : List Byte)
  /-- Unpack the integer `m` of block `k` into `w` bytes (R125). -/
  | unpack (k w m : Nat)
  deriving DecidableEq, Repr

end Sys2Proof
end

