-- ==== Sys2Proof/WellFormed.lean ====
section
/-! DEFINITION. When the operands of an operation fit the request fields of a configuration (R60, R65). -/

namespace Sys2Proof

/-- The operands fit their fields: `arg_int` has PW bits, `arg_idx` IW bits, `arg_len` LW bits, and `arg_bytes`
has exactly BMAX lanes (R60). A count above BSZ, a small modulus and an integer above P are well formed:
the operation itself answers them (R66). -/
def WellFormed (c : Params) : Instr → Bool
  | .nop => true
  | .cfg p => decide (p < 2 ^ c.pw)
  | .pack k n lanes => decide (k < 2 ^ c.iw) && decide (n < 2 ^ c.lw) && decide (lanes.length = c.bmax)
  | .unpack k w m => decide (k < 2 ^ c.iw) && decide (w < 2 ^ c.lw) && decide (m < 2 ^ c.pw)

end Sys2Proof
end

