-- ==== Sys2Proof/Decode.lean ====
section
/-! DEFINITION. The request word: its fields (R60, R61), its byte lanes (R62), its decoder (R63 to R67) and its
encoder, both written from the same two tables of 30_encoding.md. -/

namespace Sys2Proof

/-- Lane `i` of a flat byte bus is its bits `[8i+7:8i]` (R62). -/
def lane {width : Nat} (bus : BitVec width) (i : Nat) : Byte := bus.extractLsb' (8 * i) 8

/-- The BMAX lanes of a flat bus, lane 0 first (R62). -/
def lanesOf (c : Params) (bus : BitVec (8 * c.bmax)) : List Byte := (List.range c.bmax).map (lane bus)

/-- The number a flat bus reads as when its lanes are these: lane 0 is the LEAST significant byte of the bus (R62). -/
def leValue : List Byte → Nat
  | [] => 0
  | b :: bs => b.toNat + 256 * leValue bs

/-- The flat bus that carries the given lanes; lanes not given are 0 (R62, R68). -/
def busOf (c : Params) (lanes : List Byte) : BitVec (8 * c.bmax) := BitVec.ofNat _ (leValue lanes)

/-- The five fields of a request (R60). -/
structure Request (c : Params) where
  op : BitVec 2
  argInt : BitVec c.pw
  argBytes : BitVec (8 * c.bmax)
  argLen : BitVec c.lw
  argIdx : BitVec c.iw
  deriving DecidableEq, Repr

/-- The fields of a request word at the positions of R61. -/
def Request.ofWord {c : Params} (w : BitVec c.rw) : Request c where
  op := w.extractLsb' 0 2
  argInt := w.extractLsb' 2 c.pw
  argBytes := w.extractLsb' (c.pw + 2) (8 * c.bmax)
  argLen := w.extractLsb' (c.pw + 8 * c.bmax + 2) c.lw
  argIdx := w.extractLsb' (c.pw + 8 * c.bmax + c.lw + 2) c.iw

/-- The request word of five fields, `arg_idx` most significant and `op` least (R61). -/
def Request.toWord {c : Params} (r : Request c) : BitVec c.rw :=
  r.argIdx ++ r.argLen ++ r.argBytes ++ r.argInt ++ r.op

/-- The operation a request selects (R63) with the operands that operation uses (R64). All four values of `op`
are assigned, so every request has one. -/
def Request.instr {c : Params} (r : Request c) : Instr :=
  match r.op.toNat with
  | 0 => .nop
  | 1 => .cfg r.argInt.toNat
  | 2 => .pack r.argIdx.toNat r.argLen.toNat (lanesOf c r.argBytes)
  | _ => .unpack r.argIdx.toNat r.argLen.toNat r.argInt.toNat

/-- The decoder: total, since every RW-bit word is a well-formed request (R66). -/
def decode (c : Params) (w : BitVec c.rw) : Instr := (Request.ofWord w).instr

/-- The `op` value of an operation (R63). -/
def Instr.op : Instr → BitVec 2
  | .nop => 0b00#2
  | .cfg _ => 0b01#2
  | .pack _ _ _ => 0b10#2
  | .unpack _ _ _ => 0b11#2

/-- The request of an operation; the fields it does not use are 0 (R68). -/
def request (c : Params) (i : Instr) : Request c :=
  match i with
  | .nop => ⟨i.op, 0, 0, 0, 0⟩
  | .cfg p => ⟨i.op, BitVec.ofNat _ p, 0, 0, 0⟩
  | .pack k n lanes => ⟨i.op, 0, busOf c lanes, BitVec.ofNat _ n, BitVec.ofNat _ k⟩
  | .unpack k w m => ⟨i.op, BitVec.ofNat _ m, 0, BitVec.ofNat _ w, BitVec.ofNat _ k⟩

/-- The encoder: the request word of an operation (R61). -/
def encode (c : Params) (i : Instr) : BitVec c.rw := (request c i).toWord

/-- Why a number is no request. -/
inductive DecodeReject where
  /-- The number does not fit RW bits, so no request word is meant (R67; log entry 15, DESIGN CHOICE). -/
  | widerThanRequest
  deriving DecidableEq, Repr

/-- The decoder on any number, as a loader that does not know the width would call it. -/
def decodeBits (c : Params) (w : Nat) : Except DecodeReject Instr :=
  if w < 2 ^ c.rw then .ok (decode c (BitVec.ofNat _ w)) else .error .widerThanRequest

/-- The host's table check: the operation the decoder reads from the bits `w` in the reference configuration (R10),
whose one request word is numbered as the opcode table numbers it. The bits above those the table gives are already
0 in `w`, so their number is not needed. -/
def decodeTableWord (_nbits w : Nat) : Option Instr :=
  match decodeBits Config.reference w with
  | .ok i => some i
  | .error _ => none

end Sys2Proof
end

