-- ==== Sys2Proof/Machine/State.lean ====
section
/-! DEFINITION. Everything the spec gives the machine, as plain data: the ten registers of the BCU (R32), the pins of
the next cycles (R60, R190), and the one requester, the harness agent with its cipher oracle and its storage
(R140 to R161). -/

namespace Sys2Proof.Machine

/-- Why the machine stops. The spec gives the BCU no trap and no stop: an error is a latched code after which the
machine goes on (R171, R176). So no step faults, and this type has no constructor. -/
inductive Fault where
  deriving DecidableEq, Repr

/-- Why an operation has no meaning here. -/
inductive Refusal where
  /-- Raised by `exec`'s arm of an operation that has no meaning yet; safe. No arm raises it in this model. -/
  | notModelled (mnemonic : String)
  deriving DecidableEq, Repr

/-- The error codes by name (R170). `rtMismatch` and `blockCount` are verdicts of the harness and never in ERR. -/
inductive ErrCode where
  | none | config | encRange | decRange | lenOvf | rtMismatch | operand | unconfigured | blockCount
  deriving DecidableEq, Repr

/-- The registers of the BCU, all ten of them (R32, R34). -/
structure Bcu (c : Params) where
  /-- `P`, the modulus of the current run (R22). -/
  p : BitVec c.pw
  /-- `BITLEN`, the bit length of P (R23). -/
  bitlen : BitVec c.blw
  /-- `BSZ`, the block size B (R24). -/
  bsz : BitVec c.lw
  /-- `CFGD`, whether the last CFG since reset succeeded (R25). -/
  cfgd : Bool
  /-- `ERR`, the sticky code of the first error of the run (R26). -/
  err : BitVec 4
  /-- `ERR_IDX`, the block index of that error (R27). -/
  errIdx : BitVec c.iw
  /-- `DONE`, whether the operation of the previous cycle completed without error (R28). -/
  done : Bool
  /-- `RES_INT`, the integer of the last successful PACK (R29). -/
  resInt : BitVec c.pw
  /-- `RES_BYTES`, the bytes of the last successful UNPACK; lane `i` at bits `[8i+7:8i]` (R30, R62). -/
  resBytes : BitVec (8 * c.bmax)
  /-- `RES_LEN`, the byte count of the last successful UNPACK (R31). -/
  resLen : BitVec c.lw
  deriving DecidableEq, Repr

/-- The output ports: every register under its name in lower case (R32). -/
structure Ports (c : Params) where
  p : BitVec c.pw
  bitlen : BitVec c.blw
  bsz : BitVec c.lw
  cfgd : BitVec 1
  err : BitVec 4
  err_idx : BitVec c.iw
  done : BitVec 1
  res_int : BitVec c.pw
  res_bytes : BitVec (8 * c.bmax)
  res_len : BitVec c.lw
  deriving DecidableEq, Repr

/-- A pair of integers: a base point, a public point or a ciphertext coordinate pair (R153). Integers are non-negative
throughout (R12). -/
abbrev Point := Nat × Nat

/-- A ciphertext record: two coordinate pairs and an auxiliary integer (R153, R156). -/
structure Record where
  c1 : Point
  c2 : Point
  r : Nat
  deriving DecidableEq, Repr

/-- What keygen returns (R153): the private key, taken to be an integer, and the public point, taken to be a pair like the
base point (log entry 10, PRESUMED). -/
structure Keys where
  kpriv : Nat
  q : Point
  deriving DecidableEq, Repr

/-- The Bundle: its fields are these and no other; the private key is none of them (R156). -/
structure Bundle (c : Params) where
  p : BitVec c.pw
  a : Nat
  p0 : Point
  q : Point
  len : Nat
  records : List Record
  deriving DecidableEq, Repr

/-- The arguments of VERIFY (R157). -/
structure VerifyArgs (c : Params) where
  src : List Byte
  p : BitVec c.pw
  a : Nat
  p0 : Point
  deriving DecidableEq, Repr

/-- The harness procedures, the multi-operation forms of the spec (R69), with their arguments. -/
inductive Call (c : Params) where
  /-- ENCODE(buf, p) (R141). -/
  | encode (buf : List Byte) (p : BitVec c.pw)
  /-- DECODE(ints, p, L) (R150). The integers have any size: they may come from the cipher. -/
  | decode (ints : List Nat) (p : BitVec c.pw) (len : Nat)
  /-- VERIFY(src, p, a, P0) (R157). -/
  | verify (v : VerifyArgs c)
  deriving DecidableEq, Repr

/-- The verdict of a procedure (R154). -/
inductive Verdict (c : Params) where
  /-- OK of ENCODE: the block sequence. -/
  | okInts (ints : List (BitVec c.pw))
  /-- OK of DECODE: the reconstructed buffer. -/
  | okBytes (out : List Byte)
  /-- PASS of VERIFY. -/
  | pass
  /-- FAIL(code, idx). -/
  | fail (code : BitVec 4) (idx : Nat)
  /-- REFUSED (R143): the run has no meaning, and nothing is claimed of the hardware. -/
  | refused
  deriving DecidableEq, Repr

/-- The locals of ENCODE (R141), and the VERIFY it runs for, if any. -/
structure EncodeJob (c : Params) where
  buf : List Byte
  p : BitVec c.pw
  /-- `B`, read from BSZ after the CFG. -/
  b : Nat
  /-- The loop position `k`. -/
  k : Nat
  ints : List (BitVec c.pw)
  caller : Option (VerifyArgs c × Keys)
  deriving DecidableEq, Repr

/-- The locals of DECODE (R150), and the source buffer of the VERIFY it runs for, if any. -/
structure DecodeJob (c : Params) where
  ints : List Nat
  p : BitVec c.pw
  /-- `L`, the length of the original buffer. -/
  len : Nat
  b : Nat
  k : Nat
  out : List Byte
  caller : Option (List Byte)
  deriving DecidableEq, Repr

/-- Where the harness stands in a procedure. A name in `…Issued` is the cycle after a request, in which the harness
reads the BCU's outputs (R140). -/
inductive Ctl (c : Params) where
  /-- No procedure is running. -/
  | idle
  /-- ENCODE: `CFG p` is next. -/
  | encodeCfg (e : EncodeJob c)
  | encodeCfgIssued (e : EncodeJob c)
  /-- ENCODE: `PACK k` is next. -/
  | encodePack (e : EncodeJob c)
  | encodePackIssued (e : EncodeJob c)
  /-- DECODE: `CFG p` is next. -/
  | decodeCfg (d : DecodeJob c)
  | decodeCfgIssued (d : DecodeJob c)
  /-- DECODE: `UNPACK k` is next. -/
  | decodeUnpack (d : DecodeJob c)
  | decodeUnpackIssued (d : DecodeJob c)
  /-- VERIFY step 1: the call of keygen is next (R157). -/
  | keygen (v : VerifyArgs c)
  /-- VERIFY step 3: the records so far; the next block to encrypt is the one of that index. -/
  | encrypt (v : VerifyArgs c) (key : Keys) (ints : List (BitVec c.pw)) (records : List Record)
  /-- VERIFY step 4: the Bundle is to be stored. -/
  | persist (v : VerifyArgs c) (key : Keys) (b : Bundle c)
  /-- VERIFY step 5: the stored Bundle is to be read back. -/
  | reload (v : VerifyArgs c) (key : Keys)
  /-- VERIFY step 6: the integers so far; the next record to decrypt is the one of that index. -/
  | decrypt (v : VerifyArgs c) (key : Keys) (b : Bundle c) (ints : List Nat)
  deriving DecidableEq, Repr

/-- One call of the external cipher with its arguments and what it returned (R153). -/
inductive CipherCall (c : Params) where
  | keygen (p : BitVec c.pw) (a : Nat) (p0 : Point) (result : Keys)
  | encrypt (m : BitVec c.pw) (q : Point) (kpriv : Nat) (p : BitVec c.pw) (a : Nat) (p0 : Point) (result : Record)
  | decrypt (c1 c2 : Point) (kpriv r a : Nat) (p : BitVec c.pw) (result : Nat)
  deriving DecidableEq, Repr

/-- The external cipher as an oracle (R153): the results its next calls return, in call order, which nothing
constrains, and the record of the calls made. An empty list of results is a call that does not return (R200). DESIGN
CHOICE, log entry 6. -/
structure Oracle (c : Params) where
  keys : List Keys
  records : List Record
  /-- The integers decrypt returns, of any size: one at or above the modulus is an answer too (R160). -/
  plains : List Nat
  /-- The calls made so far, oldest first (the model's own field). -/
  calls : List (CipherCall c)
  deriving DecidableEq, Repr

/-- What the host does next when no procedure is running (log entry 3, DESIGN CHOICE). -/
inductive Action (c : Params) where
  /-- Present one request word (R60, R180). -/
  | present (w : BitVec c.rw)
  /-- Start a harness procedure (R69). -/
  | call (q : Call c)
  deriving DecidableEq, Repr

/-- The harness agent (R140), the BCU's one requester (R50, R183). -/
structure Harness (c : Params) where
  /-- What the host will do, in order. -/
  todo : List (Action c)
  ctl : Ctl c
  /-- For each coming cycle of a running procedure, whether the harness presents NOP in it instead of going on, as
  R140 lets it in any cycle; no entry means it goes on (log entry 5, DESIGN CHOICE). -/
  waits : List Bool
  oracle : Oracle c
  /-- The durable storage of the Bundle (R48, R156), which holds the Bundle persisted last (log entry 20, DESIGN
  CHOICE). -/
  storage : Option (Bundle c)
  /-- The verdicts returned so far, oldest first (R154). -/
  verdicts : List (Verdict c)
  deriving DecidableEq, Repr

/-- The whole machine. -/
structure State where
  /-- The parameters of this BCU (R6, R9); no step changes them (log entry 1, DESIGN CHOICE). -/
  cfg : Params
  /-- The registers (R32). -/
  bcu : Bcu cfg
  /-- The level of the `rst` pin in each coming cycle; low where the list says nothing (R190; log entry 4, DESIGN CHOICE). -/
  rst : List Bool
  /-- The agent at the request port. -/
  harness : Harness cfg
  deriving DecidableEq, Repr

/-- Every register at its reset value (R32, R190). -/
def Bcu.reset (c : Params) : Bcu c where
  p := 0
  bitlen := 0
  bsz := 0
  cfgd := false
  err := 0
  errIdx := 0
  done := false
  resInt := 0
  resBytes := 0
  resLen := 0

/-- The harness with nothing to do and nothing done (R140: it keeps no state but that of a procedure; log
entry 18, DESIGN CHOICE). -/
def Harness.rest (c : Params) : Harness c where
  todo := []
  ctl := .idle
  waits := []
  oracle := ⟨[], [], [], []⟩
  storage := none
  verdicts := []

/-- The machine of parameters `c` right after reset, `rst` low and no request waiting (R190, R192). -/
def State.resetOf (c : Params) : State where
  cfg := c
  bcu := Bcu.reset c
  rst := []
  harness := Harness.rest c

/-- The machine right after reset, in the reference configuration (R10, R190; log entries 1 and 8, DESIGN CHOICE). -/
def State.reset : State := State.resetOf Config.reference

end Sys2Proof.Machine
end

