-- ==== Sys2Proof/Machine/Flags.lean ====
section
/-! DEFINITION. The error codes and the four checks that set an error. -/

namespace Sys2Proof.Machine

/-- The number of an error code (R170). -/
def ErrCode.code : ErrCode → BitVec 4
  | .none => 0
  | .config => 1
  | .encRange => 2
  | .decRange => 3
  | .lenOvf => 4
  | .rtMismatch => 5
  | .operand => 6
  | .unconfigured => 7
  | .blockCount => 8

/-- `cfg_err = (bsz(p) < 1)` (R80). -/
def cfgErr (bsz : Nat) : Bool := decide (bsz < 1)

/-- The count check of PACK and UNPACK, `n < 1 or n > BSZ` (R105, R125). -/
def countErr (n bsz : Nat) : Bool := decide (n < 1) || decide (bsz < n)

/-- `range_err`: the value is at or above the modulus, compared as unsigned integers of unbounded width (R102,
R120). -/
def rangeErr (v p : Nat) : Bool := decide (p ≤ v)

/-- `len_err`: the value needs more than `w` bytes (R120). -/
def lenErr (m w : Nat) : Bool := decide (2 ^ (8 * w) ≤ m)

end Sys2Proof.Machine
end

