-- ==== Sys2Proof/Machine/Operands.lean ====
section
/-! DEFINITION. The operand forms: what an operation's operands are on the buses of the request port (R60, R65).
On a well-formed operation each is the operand itself; no request word decodes to any other (log entry 2, DESIGN CHOICE). -/

namespace Sys2Proof.Machine

/-- The integer operand `arg_int`, p for CFG and m for UNPACK: unsigned, unscaled, not extended (R65). -/
def intOperand (c : Params) (x : Nat) : BitVec c.pw := BitVec.ofNat _ x

/-- The byte count `arg_len`, n for PACK and w for UNPACK (R65). -/
def lenOperand (c : Params) (x : Nat) : BitVec c.lw := BitVec.ofNat _ x

/-- The block index `arg_idx` (R65). -/
def idxOperand (c : Params) (x : Nat) : BitVec c.iw := BitVec.ofNat _ x

/-- The byte lanes `arg_bytes` (R62, R65). -/
def bytesOperand (c : Params) (lanes : List Byte) : BitVec (8 * c.bmax) := busOf c lanes

end Sys2Proof.Machine
end

