-- ==== Sys2Proof/Machine/Leaf.lean ====
section
/-! DEFINITION. The three combinational leaf functions BSC, PACKER and UNPACKER, and the two byte-order maps they use. -/

namespace Sys2Proof.Machine

/-- `be(D, n)`, the big-endian value of the first `n` lanes: the sum of `D[i] * 256^(n-1-i)` (R15), each further
lane being less significant than those before it. -/
def be (d : Nat → Byte) : Nat → Nat
  | 0 => 0
  | n + 1 => 256 * be d n + (d n).toNat

/-- Byte `i` of the `w`-byte big-endian image of `m`: `(m div 256^(w-1-i)) mod 256` (R16). -/
def byteBe (m w i : Nat) : Byte := BitVec.ofNat 8 (m / 256 ^ (w - 1 - i) % 256)

/-- `bytes_be(m, w)` (R16). -/
def bytesBe (m w : Nat) : List Byte := (List.range w).map (byteBe m w)

/-- `bsz(p) = sat(bitlen(p) - 1) div 8` (R80); the subtraction of naturals saturates (R12). -/
def bszOf (p : Nat) : Nat := (Sys2Proof.bitlen p - 1) / 8

/-- The outputs of BSC. -/
structure BscOut (c : Params) where
  bitlenO : BitVec c.blw
  bszO : BitVec c.lw
  cfgErr : Bool
  deriving DecidableEq, Repr

/-- The leaf function BSC (R80). -/
def bsc (c : Params) (p : BitVec c.pw) : BscOut c where
  bitlenO := BitVec.ofNat _ (Sys2Proof.bitlen p.toNat)
  bszO := BitVec.ofNat _ (bszOf p.toNat)
  cfgErr := Machine.cfgErr (bszOf p.toNat)

/-- The leaf function PACKER (R100), defined for `n <= BMAX`; a free value outside (log entry 9, DESIGN CHOICE). -/
def packer (c : Params) (d : BitVec (8 * c.bmax)) (n : Nat) (p : BitVec c.pw) : PackerOut c :=
  if n ≤ c.bmax then
    { v := BitVec.ofNat _ (be (lane d) n), rangeErr := Machine.rangeErr (be (lane d) n) p.toNat }
  else
    Config.packerOutside c d n p

/-- The lanes `q` of UNPACKER: the `w`-byte image of `m`, and 0 in the lanes from `w` on (R120, R121). -/
def unpackerLanes (c : Params) (m w : Nat) : BitVec (8 * c.bmax) :=
  busOf c ((List.range c.bmax).map fun i => if i < w then byteBe m w i else 0)

/-- The leaf function UNPACKER (R120), defined for `1 <= w <= BMAX`; a free value outside, and free lanes when
`len_err = 1` (log entry 9, DESIGN CHOICE). -/
def unpacker (c : Params) (m : BitVec c.pw) (w : Nat) (p : BitVec c.pw) : UnpackerOut c :=
  if 1 ≤ w ∧ w ≤ c.bmax then
    { q := if Machine.lenErr m.toNat w then Config.unpackerLanes c m w p else unpackerLanes c m.toNat w
      rangeErr := Machine.rangeErr m.toNat p.toNat
      lenErr := Machine.lenErr m.toNat w }
  else
    Config.unpackerOutside c m w p

end Sys2Proof.Machine
end

