-- ==== Sys2Proof/Machine/Ops.lean ====
section
/-! DEFINITION. The named operations over the registers: raising an error (the BCU's exception, R172), the refusal
that follows one (R174), the checks that precede every block operation (R173), and what each operation writes. -/

namespace Sys2Proof.Machine

/-- `raise E(idx)`: taking the BCU's one kind of exception. It writes ERR, ERR_IDX and DONE and nothing else; there
is no program counter to save, no mode to change, no vector and no return from it (R172, R176, R177). -/
def Bcu.raise {c : Params} (u : Bcu c) (e : ErrCode) (idx : BitVec c.iw) : Bcu c :=
  { u with err := e.code, errIdx := idx, done := false }

/-- `refuse`: only `DONE <- 0` (R174). -/
def Bcu.refuse {c : Params} (u : Bcu c) : Bcu c := { u with done := false }

/-- The checks every block operation makes first, in the order of R173: refusal while an error is latched, then
UNCONFIGURED, then OPERAND for a count outside `1 .. BSZ`; `body` is what follows them. -/
def Bcu.block {c : Params} (u : Bcu c) (k : BitVec c.iw) (n : BitVec c.lw) (body : Bcu c) : Bcu c :=
  if u.err ≠ ErrCode.none.code then u.refuse
  else if u.cfgd = false then u.raise .unconfigured k
  else if countErr n.toNat u.bsz.toNat then u.raise .operand k
  else body

/-- What NOP writes (R86). -/
def Bcu.nop {c : Params} (u : Bcu c) : Bcu c := { u with done := false }

/-- What CFG writes: every register, whatever they held (R85). -/
def Bcu.configure (c : Params) (p : BitVec c.pw) : Bcu c where
  p := p
  bitlen := (bsc c p).bitlenO
  bsz := (bsc c p).bszO
  cfgd := !(bsc c p).cfgErr
  err := if (bsc c p).cfgErr then ErrCode.config.code else ErrCode.none.code
  errIdx := 0
  done := !(bsc c p).cfgErr
  resInt := 0
  resBytes := 0
  resLen := 0

/-- What PACK writes (R105). The range check is made although it never fires after a successful CFG (R102, R103). -/
def Bcu.pack {c : Params} (u : Bcu c) (k : BitVec c.iw) (n : BitVec c.lw) (d : BitVec (8 * c.bmax)) : Bcu c :=
  u.block k n <|
    if (packer c d n.toNat u.p).rangeErr then u.raise .encRange k
    else { u with resInt := (packer c d n.toNat u.p).v, done := true }

/-- What UNPACK writes; the range check comes before the length check (R125, R173). -/
def Bcu.unpack {c : Params} (u : Bcu c) (k : BitVec c.iw) (w : BitVec c.lw) (m : BitVec c.pw) : Bcu c :=
  u.block k w <|
    if (unpacker c m w.toNat u.p).rangeErr then u.raise .decRange k
    else if (unpacker c m w.toNat u.p).lenErr then u.raise .lenOvf k
    else { u with resBytes := (unpacker c m w.toNat u.p).q, resLen := w, done := true }

/-- The output ports, driven by the registers at all times (R32). Reading them changes nothing (R46). -/
def Bcu.ports {c : Params} (u : Bcu c) : Ports c where
  p := u.p
  bitlen := u.bitlen
  bsz := u.bsz
  cfgd := BitVec.ofBool u.cfgd
  err := u.err
  err_idx := u.errIdx
  done := BitVec.ofBool u.done
  res_int := u.resInt
  res_bytes := u.resBytes
  res_len := u.resLen

/-- The level of the `rst` pin in the coming cycle: the next in the list, low when the list has ended (R190). -/
def State.rstNow (s : State) : Bool :=
  match s.rst with
  | [] => false
  | level :: _ => level

/-- A state whose registers are replaced, all at once (R46, R194). -/
abbrev State.withBcu (s : State) (u : Bcu s.cfg) : State := { s with bcu := u }

end Sys2Proof.Machine
end

