-- ==== Sys2Proof/Machine/BlockSize.lean ====
section
/-! DEFINITION. The operations of 40_block_size_calculator.md: NOP and CFG. -/

namespace Sys2Proof.Machine

/-- NOP (R86): DONE <- 0, whatever ERR and CFGD hold. -/
def execNop (s : State) : Host.Outcome State Fault Refusal := .next (s.withBcu s.bcu.nop)

/-- CFG (R85): load the modulus, derive B, start a new run. It is never refused (R175). -/
def execCfg (p : Nat) (s : State) : Host.Outcome State Fault Refusal :=
  .next (s.withBcu (Bcu.configure s.cfg (intOperand s.cfg p)))

end Sys2Proof.Machine
end

