-- ==== Sys2Proof/Machine/Packer.lean ====
section
/-! DEFINITION. The operation of 41_byte_packer.md: PACK. -/

namespace Sys2Proof.Machine

/-- PACK (R105): pack the first `n` lanes of chunk `k` into an integer and validate it. -/
def execPack (k n : Nat) (lanes : List Byte) (s : State) : Host.Outcome State Fault Refusal :=
  .next (s.withBcu (s.bcu.pack (idxOperand s.cfg k) (lenOperand s.cfg n) (bytesOperand s.cfg lanes)))

end Sys2Proof.Machine
end

