-- ==== Sys2Proof/Machine/Unpacker.lean ====
section
/-! DEFINITION. The operation of 42_byte_unpacker.md: UNPACK. -/

namespace Sys2Proof.Machine

/-- UNPACK (R125): unpack the integer `m` of block `k` into `w` bytes. -/
def execUnpack (k w m : Nat) (s : State) : Host.Outcome State Fault Refusal :=
  .next (s.withBcu (s.bcu.unpack (idxOperand s.cfg k) (lenOperand s.cfg w) (intOperand s.cfg m)))

end Sys2Proof.Machine
end

