-- ==== Sys2Proof/Machine/Dispatch.lean ====
section
/-! DEFINITION. One arm for each operation of the request port. -/

namespace Sys2Proof.Machine

def exec (i : Instr) (s : State) : Host.Outcome State Fault Refusal :=
  match i with
  | .nop => Sys2Proof.Machine.execNop s
  | .cfg p => Sys2Proof.Machine.execCfg p s
  | .pack k n lanes => Sys2Proof.Machine.execPack k n lanes s
  | .unpack k w m => Sys2Proof.Machine.execUnpack k w m s

end Sys2Proof.Machine
end

