-- ==== Sys2Proof/Machine/Harness.lean ====
section
/-! DEFINITION. The sequencing harness of 43_round_trip_verifier.md: the procedures ENCODE, DECODE and VERIFY as the
host agent of the BCU, one cycle at a time. In each cycle the harness first reads the BCU's outputs if it presented a
request in the cycle before, then presents one request word (R140). -/

namespace Sys2Proof.Machine

/-! ## Buffers -/

/-- `ceil(L / B)`, the number of chunks of a buffer (R44), for `B >= 1`. -/
def blockCount (len b : Nat) : Nat := (len + (b - 1)) / b

/-- `MemRead(buf, off, n)`: the `n` bytes of `buf` from offset `off` (R41). -/
def memRead (buf : List Byte) (off n : Nat) : List Byte := (buf.drop off).take n

/-- `MemWrite(out, off, w, RES_BYTES)`: lanes `0 .. w-1` appended to the output buffer, lane 0 first (R42). -/
def memWrite {c : Params} (out : List Byte) (w : Nat) (q : BitVec (8 * c.bmax)) : List Byte :=
  out ++ (List.range w).map (lane q)

/-- A chunk on the byte lanes: lane `i` carries its byte `i`, and the other lanes are 0 (R41, R141). -/
def chunkLanes (c : Params) (chunk : List Byte) : List Byte := (List.range c.bmax).map fun i => chunk.getD i 0

/-- The byte count of chunk `k`: `min(B, L - k*B)` (R44, R141). -/
def chunkLen (len b k : Nat) : Nat := min b (len - k * b)

/-- The width block `k` of `n` is unpacked at: `B`, but the last block `L - (N-1)*B` (R124, R150). -/
def blockWidth (len b n k : Nat) : Nat := if k < n - 1 then b else len - (n - 1) * b

/-- The block count of a DECODE is the one an ENCODE of `len` bytes gives (R150, R151). -/
def blockCountOk (n len b : Nat) : Bool :=
  (decide (n = 0) && decide (len = 0)) || (decide (1 ≤ n) && decide ((n - 1) * b < len) && decide (len ≤ n * b))

/-- The least offset at which two buffers differ (R158). -/
def firstDiff : List Byte → List Byte → Nat
  | x :: xs, y :: ys => if x = y then firstDiff xs ys + 1 else 0
  | _, _ => 0

/-! ## Returning a verdict -/

/-- A procedure returns: the verdict is recorded and no procedure runs any more (R140, R155, R161). -/
def Harness.returns {c : Params} (h : Harness c) (v : Verdict c) : Harness c :=
  { h with ctl := .idle, verdicts := h.verdicts ++ [v] }

/-- ENCODE has the verdict `v`. On its own it returns it; within VERIFY, OK goes on to step 3 and anything else is
VERIFY's own verdict (R157 step 2). -/
def Harness.encodeDone {c : Params} (h : Harness c) (e : EncodeJob c) (v : Verdict c) : Harness c :=
  match v, e.caller with
  | .okInts ints, some (args, key) => { h with ctl := .encrypt args key ints [] }
  | _, _ => h.returns v

/-- VERIFY step 8: PASS if the buffers are equal, else the least offset at which they differ (R157, R158). -/
def compareBuffers {c : Params} (out src : List Byte) : Verdict c :=
  if out = src then .pass else .fail ErrCode.rtMismatch.code (firstDiff out src)

/-- DECODE has the verdict `v`. On its own it returns it; within VERIFY, OK goes on to the comparison and anything
else is VERIFY's own verdict (R157 steps 7 and 8). -/
def Harness.decodeDone {c : Params} (h : Harness c) (d : DecodeJob c) (v : Verdict c) : Harness c :=
  match v, d.caller with
  | .okBytes out, some src => h.returns (compareBuffers out src)
  | _, _ => h.returns v

/-! ## Reading the outputs in the cycle after a request -/

/-- The head of ENCODE's loop: PACK of block `k`, or OK after the last (R141). -/
def Harness.encodeLoop {c : Params} (h : Harness c) (e : EncodeJob c) : Harness c :=
  if e.k < blockCount e.buf.length e.b then { h with ctl := .encodePack e }
  else h.encodeDone e (.okInts e.ints)

/-- ENCODE after its CFG (R141, R143). A BSZ of 0 without CONFIG is a CFG that reset discarded: the division by B has
no meaning, and the run is REFUSED (log entry 7, DESIGN CHOICE). -/
def Harness.encodeConfigured {c : Params} (h : Harness c) (e : EncodeJob c) (u : Bcu c) : Harness c :=
  if u.err = ErrCode.config.code then h.encodeDone e (.fail ErrCode.config.code 0)
  else if u.bsz.toNat = 0 then h.encodeDone e .refused
  else if 2 ^ c.iw < blockCount e.buf.length u.bsz.toNat then h.encodeDone e .refused
  else h.encodeLoop { e with b := u.bsz.toNat, k := 0, ints := [] }

/-- ENCODE after `PACK k` (R141): FAIL with ERR and ERR_IDX, or the integer appended. -/
def Harness.encodePacked {c : Params} (h : Harness c) (e : EncodeJob c) (u : Bcu c) : Harness c :=
  if u.err ≠ ErrCode.none.code then h.encodeDone e (.fail u.err u.errIdx.toNat)
  else h.encodeLoop { e with k := e.k + 1, ints := e.ints ++ [u.resInt] }

/-- The head of DECODE's loop: UNPACK of block `k`, or OK after the last (R150). -/
def Harness.decodeLoop {c : Params} (h : Harness c) (d : DecodeJob c) : Harness c :=
  if d.k < d.ints.length then { h with ctl := .decodeUnpack d }
  else h.decodeDone d (.okBytes d.out)

/-- DECODE after its CFG: the configuration error, the block-count check and the block-count limit, in that order
(R150, R151, R143). -/
def Harness.decodeConfigured {c : Params} (h : Harness c) (d : DecodeJob c) (u : Bcu c) : Harness c :=
  if u.err = ErrCode.config.code then h.decodeDone d (.fail ErrCode.config.code 0)
  else if !blockCountOk d.ints.length d.len u.bsz.toNat then h.decodeDone d (.fail ErrCode.blockCount.code 0)
  else if 2 ^ c.iw < d.ints.length then h.decodeDone d .refused
  else h.decodeLoop { d with b := u.bsz.toNat, k := 0, out := [] }

/-- The width of the block DECODE is at (R150). -/
def DecodeJob.width {c : Params} (d : DecodeJob c) : Nat := blockWidth d.len d.b d.ints.length d.k

/-- DECODE after `UNPACK k` (R150): FAIL with ERR and ERR_IDX, or the lanes appended. -/
def Harness.decodeUnpacked {c : Params} (h : Harness c) (d : DecodeJob c) (u : Bcu c) : Harness c :=
  if u.err ≠ ErrCode.none.code then h.decodeDone d (.fail u.err u.errIdx.toNat)
  else h.decodeLoop { d with k := d.k + 1, out := memWrite d.out d.width u.resBytes }

/-- What the harness does with the outputs of the BCU in the cycle after a request; in any other cycle it reads
nothing (R140). -/
def Harness.readOutputs {c : Params} (h : Harness c) (u : Bcu c) : Harness c :=
  match h.ctl with
  | .encodeCfgIssued e => h.encodeConfigured e u
  | .encodePackIssued e => h.encodePacked e u
  | .decodeCfgIssued d => h.decodeConfigured d u
  | .decodeUnpackIssued d => h.decodeUnpacked d u
  | .idle | .encodeCfg _ | .encodePack _ | .decodeCfg _ | .decodeUnpack _ | .keygen _ | .encrypt _ _ _ _
  | .persist _ _ _ | .reload _ _ | .decrypt _ _ _ _ => h

/-! ## Presenting a request -/

/-- The start of a procedure (R141, R150, R157). -/
def Ctl.start {c : Params} : Call c → Ctl c
  | .encode buf p => .encodeCfg ⟨buf, p, 0, 0, [], none⟩
  | .decode ints p len => .decodeCfg ⟨ints, p, len, 0, 0, [], none⟩
  | .verify args => .keygen args

/-- The request `PACK k, n, D` of ENCODE's loop (R141). -/
def EncodeJob.pack {c : Params} (e : EncodeJob c) : Instr :=
  let n := chunkLen e.buf.length e.b e.k
  .pack e.k n (chunkLanes c (memRead e.buf (e.k * e.b) n))

/-- The integer operand that stands for `m` on the request port: `m` itself, and the largest PW-bit integer where `m`
does not fit it. That integer is at or above every modulus the BCU holds, so the BCU answers DEC_RANGE as R150 and R160
say of every integer at or above the modulus (log entry 6, DESIGN CHOICE). -/
def portInt (c : Params) (m : Nat) : Nat := min m (2 ^ c.pw - 1)

/-- The request `UNPACK k, w, ints[k]` of DECODE's loop (R150). -/
def DecodeJob.unpack {c : Params} (d : DecodeJob c) : Instr :=
  .unpack d.k d.width (portInt c (d.ints.getD d.k 0))

/-- The calls of the cipher, each in a cycle in which NOP is presented, since a call has no effect on the BCU (R152,
R153). A call that has not returned leaves the harness where it is. -/
def Harness.callKeygen {c : Params} (h : Harness c) (args : VerifyArgs c) : Harness c :=
  match h.oracle.keys with
  | [] => h
  | key :: rest =>
    { h with
      ctl := .encodeCfg ⟨args.src, args.p, 0, 0, [], some (args, key)⟩
      oracle := { h.oracle with
        keys := rest
        calls := h.oracle.calls ++ [.keygen args.p args.a args.p0 key] } }

/-- VERIFY steps 3 and 4 (R157): encrypt the block whose index is the number of records so far; after the last, put
the Bundle together (R156). -/
def Harness.callEncrypt {c : Params} (h : Harness c) (args : VerifyArgs c) (key : Keys) (ints : List (BitVec c.pw))
    (records : List Record) : Harness c :=
  match ints[records.length]? with
  | none =>
    { h with ctl := .persist args key ⟨args.p, args.a, args.p0, key.q, args.src.length, records⟩ }
  | some m =>
    match h.oracle.records with
    | [] => h
    | r :: rest =>
      { h with
        ctl := .encrypt args key ints (records ++ [r])
        oracle := { h.oracle with
          records := rest
          calls := h.oracle.calls ++ [.encrypt m key.q key.kpriv args.p args.a args.p0 r] } }

/-- VERIFY steps 6 and 7 (R157): decrypt the record whose index is the number of integers so far; after the last, run
DECODE with the modulus and the length of the Bundle. -/
def Harness.callDecrypt {c : Params} (h : Harness c) (args : VerifyArgs c) (key : Keys) (b : Bundle c)
    (ints : List Nat) : Harness c :=
  match b.records[ints.length]? with
  | none => { h with ctl := .decodeCfg ⟨ints, b.p, b.len, 0, 0, [], some args.src⟩ }
  | some r =>
    match h.oracle.plains with
    | [] => h
    | m :: rest =>
      { h with
        ctl := .decrypt args key b (ints ++ [m])
        oracle := { h.oracle with
          plains := rest
          calls := h.oracle.calls ++ [.decrypt r.c1 r.c2 key.kpriv r.r b.a b.p m] } }

/-- VERIFY step 5 (R157): the Bundle read back from storage; persisting and reloading give the same record (R156). -/
def Harness.reloadBundle {c : Params} (h : Harness c) (args : VerifyArgs c) (key : Keys) : Harness c :=
  match h.storage with
  | none => h
  | some b => { h with ctl := .decrypt args key b [] }

/-- One cycle of a running procedure: the operation it presents, and the harness after. In a state that follows a
request the harness waits for its outputs, which `readOutputs` takes. Persisting a Bundle puts it in the place of one that
an earlier VERIFY stored: the spec does not say what becomes of that one (log entry 20, DESIGN CHOICE). -/
def Harness.present {c : Params} (h : Harness c) : Instr × Harness c :=
  match h.ctl with
  | .encodeCfg e => (.cfg e.p.toNat, { h with ctl := .encodeCfgIssued e })
  | .encodePack e => (e.pack, { h with ctl := .encodePackIssued e })
  | .decodeCfg d => (.cfg d.p.toNat, { h with ctl := .decodeCfgIssued d })
  | .decodeUnpack d => (d.unpack, { h with ctl := .decodeUnpackIssued d })
  | .keygen args => (.nop, h.callKeygen args)
  | .encrypt args key ints records => (.nop, h.callEncrypt args key ints records)
  | .persist args key b => (.nop, { h with ctl := .reload args key, storage := some b })
  | .reload args key => (.nop, h.reloadBundle args key)
  | .decrypt args key b ints => (.nop, h.callDecrypt args key b ints)
  | .idle | .encodeCfgIssued _ | .encodePackIssued _ | .decodeCfgIssued _ | .decodeUnpackIssued _ => (.nop, h)

/-- One cycle of a running procedure, or a NOP in its place where `waits` says so (R140). -/
def Harness.proceed {c : Params} (h : Harness c) : BitVec c.rw × Harness c :=
  match h.waits with
  | true :: rest => (encode c .nop, { h with waits := rest })
  | false :: rest => let r := ({ h with waits := rest } : Harness c).present; (encode c r.1, r.2)
  | [] => let r := h.present; (encode c r.1, r.2)

/-- The request word of the next cycle and the harness after it. A procedure that has just returned gives way to the
next action in the same cycle; with nothing to do the request is NOP (R60, R140). -/
def Harness.cycle {c : Params} (h : Harness c) (u : Bcu c) : BitVec c.rw × Harness c :=
  let h := h.readOutputs u
  match h.ctl, h.todo with
  | .idle, [] => (encode c .nop, h)
  | .idle, .present w :: rest => (w, { h with todo := rest })
  | .idle, .call q :: rest => ({ h with todo := rest, ctl := .start q } : Harness c).proceed
  | _, _ => h.proceed

end Sys2Proof.Machine
end

