-- ==== Sys2Proof/Machine/Step.lean ====
section
/-! DEFINITION. One clock edge (R194): the request of the cycle, or reset, which wins over it (R191). -/

namespace Sys2Proof.Machine

/-- The request word of the coming cycle and the machine with its inputs taken: the harness has presented the word and
moved on, and the level of `rst` has been used up. -/
def State.sample (s : State) : BitVec s.cfg.rw × State :=
  let r := s.harness.cycle s.bcu
  (r.1, { s with rst := s.rst.tail, harness := r.2 })

/-- One rising edge of `clk`. With `rst` high every register takes its reset value and the request is discarded (R190,
R191); otherwise the request is decoded and takes effect (R60, R194). -/
def step (s : State) : Host.Outcome State Fault Refusal :=
  if s.rstNow then .next { s.sample.2 with bcu := Bcu.reset s.cfg }
  else exec (decode s.cfg s.sample.1) s.sample.2

/-- The machine about to run one given word: no procedure is running, `rst` is low in the coming cycle, and the word is
the next thing the host presents (log entry 3, DESIGN CHOICE). A number of more than RW bits is cut to its low RW bits,
since the request port has no more lines (R61, R67; log entry 15, DESIGN CHOICE). -/
def State.withFetchWord (s : State) (_nbits w : Nat) : State :=
  { s with
    rst := false :: s.rst.tail
    harness := { s.harness with ctl := .idle, todo := .present (BitVec.ofNat _ w) :: s.harness.todo } }

end Sys2Proof.Machine
end

