-- ==== Sys2Proof/Machine/Assembler.lean ====
section
/-! DEFINITION. The textual syntax of request programs (R68), from a line of characters to a request word. The points
R68 leaves open (blanks, letter case, a number that does not fit its field) are in log entry 14, DESIGN CHOICE. -/

namespace Sys2Proof.Machine

/-- A line of the assembler, as written (R68). -/
inductive AsmLine where
  | nop
  | cfg (p : Nat)
  | pack (k n : Nat) (bytes : List Nat)
  | unpack (k w m : Nat)
  deriving DecidableEq, Repr

/-- The operation of a line, with the lanes it does not list at 0. A `PACK` is rejected when its list length is not
`n`, when `n` is 0 or above BMAX (R68), and any line is rejected when a number does not fit its field. -/
def assemble (c : Params) : AsmLine → Option Instr
  | .nop => some .nop
  | .cfg p => if p < 2 ^ c.pw then some (.cfg p) else none
  | .pack k n bytes =>
    if bytes.length = n ∧ 1 ≤ n ∧ n ≤ c.bmax ∧ k < 2 ^ c.iw ∧ bytes.all (· < 256) then
      some (.pack k n ((List.range c.bmax).map fun i => BitVec.ofNat 8 (bytes.getD i 0)))
    else none
  | .unpack k w m => if k < 2 ^ c.iw ∧ w < 2 ^ c.lw ∧ m < 2 ^ c.pw then some (.unpack k w m) else none

/-- A blank separates the words of a line. -/
def isBlank (ch : Char) : Bool := ch == ' ' || ch == '\t'

/-- The text without the blanks at its two ends. -/
def trimBlanks (cs : List Char) : List Char :=
  ((cs.dropWhile isBlank).reverse.dropWhile isBlank).reverse

/-- The text of a line up to its comment, which `;` starts (R68). -/
def stripComment (cs : List Char) : List Char := cs.takeWhile (· != ';')

/-- The fields of an operand list, which commas separate (R68). -/
def splitCommas : List Char → List (List Char)
  | [] => [[]]
  | ch :: cs =>
    if ch == ',' then [] :: splitCommas cs
    else
      match splitCommas cs with
      | [] => [[ch]]
      | f :: fs => (ch :: f) :: fs

/-- The value of a hexadecimal digit. -/
def hexDigit (ch : Char) : Option Nat :=
  if '0' ≤ ch ∧ ch ≤ '9' then some (ch.toNat - '0'.toNat)
  else if 'a' ≤ ch ∧ ch ≤ 'f' then some (ch.toNat - 'a'.toNat + 10)
  else if 'A' ≤ ch ∧ ch ≤ 'F' then some (ch.toNat - 'A'.toNat + 10)
  else none

/-- The value of digits in a base, after the value `acc` of those before them. -/
def digitsFrom (base acc : Nat) : List Char → Option Nat
  | [] => some acc
  | ch :: cs =>
    match hexDigit ch with
    | some d => if d < base then digitsFrom base (base * acc + d) cs else none
    | none => none

/-- A number, decimal or `0x` hexadecimal (R68), of at least one digit. -/
def parseNumber : List Char → Option Nat
  | [] => none
  | '0' :: 'x' :: d :: ds => digitsFrom 16 0 (d :: ds)
  | ds => digitsFrom 10 0 ds

/-- The numbers of an operand list, if every field is one. -/
def parseNumbers : List (List Char) → Option (List Nat)
  | [] => some []
  | f :: fs =>
    match parseNumber (trimBlanks f), parseNumbers fs with
    | some x, some xs => some (x :: xs)
    | _, _ => none

/-- The operands after a mnemonic: none on blank text. -/
def parseOperands (cs : List Char) : Option (List Nat) :=
  if trimBlanks cs = [] then some [] else parseNumbers (splitCommas cs)

/-- A line with an operation on it, comment taken off and ends trimmed (R68). -/
def parseLine (cs : List Char) : Option AsmLine :=
  let cs := trimBlanks (stripComment cs)
  let mnemonic := cs.takeWhile (!isBlank ·)
  match parseOperands (cs.dropWhile (!isBlank ·)) with
  | none => none
  | some ops =>
    if mnemonic = "NOP".toList then
      match ops with
      | [] => some .nop
      | _ => none
    else if mnemonic = "CFG".toList then
      match ops with
      | [p] => some (.cfg p)
      | _ => none
    else if mnemonic = "PACK".toList then
      match ops with
      | k :: n :: bytes => some (.pack k n bytes)
      | _ => none
    else if mnemonic = "UNPACK".toList then
      match ops with
      | [k, w, m] => some (.unpack k w m)
      | _ => none
    else none

/-- The request word of a line of text, if the assembler accepts it. -/
def assembleText (c : Params) (line : String) : Option (BitVec c.rw) :=
  match parseLine line.toList with
  | none => none
  | some l => (assemble c l).map (encode c)

/-- The request words of a program, one operation per line; lines with nothing but blanks and a comment carry none. -/
def assembleProgram (c : Params) : List String → Option (List (BitVec c.rw))
  | [] => some []
  | line :: lines =>
    if trimBlanks (stripComment line.toList) = [] then assembleProgram c lines
    else
      match assembleText c line, assembleProgram c lines with
      | some w, some ws => some (w :: ws)
      | _, _ => none

end Sys2Proof.Machine
end

