-- ==== Sys2Proof/Safety.lean ====
section
/-! DEFINITION. The terms claims are stated in: the invariants of the registers (R33), runs of several cycles, what it
is for the host to be about to run a procedure, and the values a buffer's blocks have. -/

namespace Sys2Proof.Machine

/-! ## Invariants of the registers -/

/-- BITLEN and BSZ are derived from P (R33, 1). -/
abbrev Bcu.Derived {c : Params} (u : Bcu c) : Prop :=
  u.bitlen.toNat = Sys2Proof.bitlen u.p.toNat ∧ u.bsz.toNat = bszOf u.p.toNat

/-- CFGD is set exactly while BSZ is at least 1 (R33, 2). -/
abbrev Bcu.CfgdWhenSized {c : Params} (u : Bcu c) : Prop := u.cfgd = true ↔ 1 ≤ u.bsz.toNat

/-- CONFIG and UNCONFIGURED go with an unset CFGD, the errors of a block's operands with a set one (R33, 3 and 4). -/
abbrev Bcu.ErrMatchesCfgd {c : Params} (u : Bcu c) : Prop :=
  (u.err = ErrCode.config.code ∨ u.err = ErrCode.unconfigured.code → u.cfgd = false) ∧
  (u.err = ErrCode.encRange.code ∨ u.err = ErrCode.decRange.code ∨ u.err = ErrCode.lenOvf.code ∨
    u.err = ErrCode.operand.code → u.cfgd = true)

/-- Without an error ERR_IDX is 0 (R33, 5). -/
abbrev Bcu.IdxWhenErr {c : Params} (u : Bcu c) : Prop := u.err = ErrCode.none.code → u.errIdx = 0

/-- RES_LEN is at most BSZ, and 0 without a configuration (R33, 6). -/
abbrev Bcu.LenBounded {c : Params} (u : Bcu c) : Prop :=
  (u.cfgd = true → u.resLen.toNat ≤ u.bsz.toNat) ∧ (u.cfgd = false → u.resLen = 0)

/-- The lanes of RES_BYTES from RES_LEN on hold 0 (R33, 7). -/
abbrev Bcu.UpperLanesZero {c : Params} (u : Bcu c) : Prop :=
  ∀ i < c.bmax, u.resLen.toNat ≤ i → lane u.resBytes i = 0

/-- The invariants of R33. -/
abbrev Bcu.Inv {c : Params} (u : Bcu c) : Prop :=
  u.Derived ∧ u.CfgdWhenSized ∧ u.ErrMatchesCfgd ∧ u.IdxWhenErr ∧ u.LenBounded ∧ u.UpperLanesZero

/-- The codes the hardware writes to ERR: 0, 1, 2, 3, 4, 6 and 7 (R26). -/
abbrev Bcu.LegalErr {c : Params} (u : Bcu c) : Prop :=
  u.err = ErrCode.none.code ∨ u.err = ErrCode.config.code ∨ u.err = ErrCode.encRange.code ∨
  u.err = ErrCode.decRange.code ∨ u.err = ErrCode.lenOvf.code ∨ u.err = ErrCode.operand.code ∨
  u.err = ErrCode.unconfigured.code

/-! ## Runs -/

/-- `n` clock edges, stopping at the first that answers no next state. -/
def runFor : Nat → State → Host.Outcome State Fault Refusal
  | 0, s => .next s
  | n + 1, s =>
    match step s with
    | .next t => runFor n t
    | .fault r => .fault r
    | .refused r => .refused r

/-- The operations presented in `n` cycles, in order, a request discarded by reset among them. -/
def presented : Nat → State → List Instr
  | 0, _ => []
  | n + 1, s =>
    decode s.cfg s.sample.1 ::
      match step s with
      | .next t => presented n t
      | .fault _ => []
      | .refused _ => []

/-- The machine at power-on, before any reset: every register holds some value of its width, given by `u` (R193). -/
def State.poweredOn (c : Params) (u : Bcu c) (rst : List Bool) : State where
  cfg := c
  bcu := u
  rst := rst
  harness := Harness.rest c

/-- `rst` stays low in all coming cycles. -/
abbrev State.NoReset (s : State) : Prop := ∀ level ∈ s.rst, level = false

/-- The host is about to run the procedure `q`, and `rst` stays low. The registers, the cycles the harness waits in, and
what comes after the procedure are arbitrary. -/
abbrev State.Calls (s : State) (q : Call s.cfg) : Prop :=
  s.harness.ctl = .idle ∧ s.harness.todo.head? = some (.call q) ∧ s.NoReset

/-- After some number of cycles the verdict `v` is the next one returned. -/
def State.Returns (s : State) (v : Verdict s.cfg) : Prop :=
  ∃ n, ∃ h : Harness s.cfg, ∃ u : Bcu s.cfg, ∃ r : List Bool,
    runFor n s = .next ⟨s.cfg, u, r, h⟩ ∧ h.verdicts = s.harness.verdicts ++ [v]

/-- After some number of cycles the verdict `v` is the next one returned, and, where the host has nothing to do after the
procedure, the calls the cipher got in these cycles are `calls`. -/
def State.ReturnsAfterCalls (s : State) (v : Verdict s.cfg) (calls : List (CipherCall s.cfg)) : Prop :=
  ∃ n, ∃ h : Harness s.cfg, ∃ u : Bcu s.cfg, ∃ r : List Bool,
    runFor n s = .next ⟨s.cfg, u, r, h⟩ ∧ h.verdicts = s.harness.verdicts ++ [v] ∧
    (s.harness.todo.tail = [] → h.oracle.calls = s.harness.oracle.calls ++ calls)

/-! ## What the harness gives to the cipher -/

/-- The calls of one VERIFY: keygen, then encrypt of each integer and decrypt of each record, result `k` being that of
block `k` (R152, R153, R157). -/
def verifyCalls {c : Params} (v : VerifyArgs c) (key : Keys) (ints : List (BitVec c.pw)) (records : List Record)
    (plains : List Nat) : List (CipherCall c) :=
  .keygen v.p v.a v.p0 key ::
    (List.zipWith (fun m r => .encrypt m key.q key.kpriv v.p v.a v.p0 r) ints records ++
      List.zipWith (fun r m => .decrypt r.c1 r.c2 key.kpriv r.r v.a v.p m) records plains)

/-- Every call of encrypt so far had an integer below the modulus given with it (R153). -/
def Oracle.EncryptsInRange {c : Params} (o : Oracle c) : Prop :=
  ∀ m q kpriv p a p0 r, CipherCall.encrypt m q kpriv p a p0 r ∈ o.calls → m.toNat < p.toNat

/-- An ENCODE runs with the modulus of the VERIFY it runs for (R157). -/
def EncodeJob.SameModulus {c : Params} (e : EncodeJob c) : Prop :=
  ∀ args key, e.caller = some (args, key) → args.p = e.p

/-- What holds at each point of a procedure, so that encrypt is called in range: the registers, if configured at all, are
configured with the modulus of the ENCODE that runs, and the integers it has read are below that modulus. -/
def Ctl.EncryptsInRange {c : Params} (u : Bcu c) : Ctl c → Prop
  | .encodeCfg e => e.SameModulus
  | .encodeCfgIssued e => e.SameModulus ∧ (u.cfgd = true → u.p = e.p)
  | .encodePack e | .encodePackIssued e =>
    e.SameModulus ∧ (u.cfgd = true → u.p = e.p) ∧ 256 ≤ e.p.toNat ∧ ∀ m ∈ e.ints, m.toNat < e.p.toNat
  | .encrypt args _ ints _ => ∀ m ∈ ints, m.toNat < args.p.toNat
  | .idle | .decodeCfg _ | .decodeCfgIssued _ | .decodeUnpack _ | .decodeUnpackIssued _ | .keygen _
  | .persist _ _ _ | .reload _ _ | .decrypt _ _ _ _ => True

/-- RES_INT is below the modulus of a configured run (R32), and 0 without one. -/
abbrev Bcu.ResIntInRange {c : Params} (u : Bcu c) : Prop :=
  (u.cfgd = true → u.resInt.toNat < u.p.toNat) ∧ (u.cfgd = false → u.resInt = 0)

/-- The invariant behind encrypt's precondition (R153). -/
def State.EncryptsInRange (s : State) : Prop :=
  s.bcu.ResIntInRange ∧ s.harness.ctl.EncryptsInRange s.bcu ∧ s.harness.oracle.EncryptsInRange

/-! ## The blocks of a buffer -/

/-- Chunk `k` of a buffer in blocks of `b` bytes (R44). -/
def chunk (buf : List Byte) (b k : Nat) : List Byte := memRead buf (k * b) (chunkLen buf.length b k)

/-- The big-endian value of a byte sequence (R15). -/
def beValue (bytes : List Byte) : Nat := be (fun i => bytes.getD i 0) bytes.length

/-- The integer a block is to have: the big-endian value of its chunk (R142). -/
def blockInt (buf : List Byte) (b k : Nat) : Nat := beValue (chunk buf b k)

/-- The block sequence of a buffer in blocks of `b` bytes (R51, R106, R142). -/
def blockInts (buf : List Byte) (b : Nat) : List Nat :=
  (List.range (blockCount buf.length b)).map (blockInt buf b)

/-- The bytes that integers stand for as the blocks of a buffer of `len` bytes: the images of the integers at the widths of
their blocks, one after the other (R42, R124, R150). -/
def imageBytes (ints : List Nat) (len b : Nat) : List Byte :=
  ((List.range (blockCount len b)).map fun k => bytesBe (ints.getD k 0) (chunkLen len b k)).flatten

end Sys2Proof.Machine
end

