-- ==== Sys2Proof/Certificates/Slice0/Obligations.lean ====
section
/-! DEFINITION. The statements for the provers. Each docstring names the rules of spec/ it formalises. -/

open Sys2Proof Sys2Proof.Machine

/-! ## Notation: bit length and byte order -/

/-- R13: `bitlen(x)` is the least `k` with `x < 2^k`, which is ⌊log2 x⌋ + 1 for `x >= 1`, and 0 for 0 (a value the spec
marks as general knowledge; log entry 12). -/
def Obligations.BitlenIsLeastExponent : Prop :=
  (∀ x, x < 2 ^ bitlen x) ∧ (∀ x k, x < 2 ^ k → bitlen x ≤ k) ∧
  (∀ x, 1 ≤ x → bitlen x = Nat.log 2 x + 1) ∧ bitlen 0 = 0

/-- R15: `be(D, n)` is the sum of `D[i] * 256^(n-1-i)`, and `be(D, 0) = 0`. -/
def Obligations.BigEndianValueIsPowerSum : Prop :=
  ∀ (d : Nat → Byte) (n : Nat),
    be d n = ∑ i ∈ Finset.range n, (d i).toNat * 256 ^ (n - 1 - i) ∧ be d 0 = 0

/-- R16: `bytes_be(m, w)` has `w` bytes, byte `i` is `(m div 256^(w-1-i)) mod 256`, `be` takes it back to `m`, and it is
the minimal image of `m` padded with zero bytes on the left. -/
def Obligations.BytesBeInvertsBe : Prop :=
  ∀ m w : Nat, m < 2 ^ (8 * w) →
    (bytesBe m w).length = w ∧
    (∀ i < w, ((bytesBe m w).getD i 0).toNat = m / 256 ^ (w - 1 - i) % 256) ∧
    be (fun i => (bytesBe m w).getD i 0) w = m ∧
    bytesBe m w = List.replicate (w - (bitlen m + 7) / 8) (0 : Byte) ++ bytesBe m ((bitlen m + 7) / 8)

/-! ## The leaf functions -/

/-- R80: the three outputs of BSC, each held without loss by its output width, and their values at `p = 0`.
That `bitlen_o` is 0 at `p = 0` rests on log entry 12 (PRESUMED: the spec marks `bitlen(0)` as general knowledge). -/
def Obligations.BscComputesBlockSize : Prop :=
  ∀ (c : Params) (p : BitVec c.pw),
    (bsc c p).bitlenO.toNat = bitlen p.toNat ∧
    (bsc c p).bszO.toNat = (bitlen p.toNat - 1) / 8 ∧
    ((bsc c p).cfgErr = true ↔ (bitlen p.toNat - 1) / 8 < 1) ∧
    (p = 0 → (bsc c p).bitlenO = 0 ∧ (bsc c p).bszO = 0 ∧ (bsc c p).cfgErr = true)

/-- R81: the configuration error is exactly a modulus below 256. -/
def Obligations.ConfigErrorExactlyBelow256 : Prop :=
  ∀ (c : Params) (p : BitVec c.pw), (bsc c p).cfgErr = true ↔ p.toNat < 256

/-- R83: the band of moduli of each block size; hence values of at most B bytes are below the modulus, and the packer's
range check never fires when B is derived from the same P. -/
def Obligations.BlockSizeBand : Prop :=
  (∀ p b : Nat, 1 ≤ b → (bszOf p = b ↔ 2 ^ (8 * b) ≤ p ∧ p < 2 ^ (8 * b + 8))) ∧
  (∀ (p n : Nat) (d : Nat → Byte), 256 ≤ p → n ≤ bszOf p →
    be d n < 2 ^ (8 * n) ∧ 2 ^ (8 * n) ≤ 2 ^ (8 * bszOf p) ∧ 2 ^ (8 * bszOf p) ≤ p) ∧
  (∀ (c : Params) (p : BitVec c.pw) (n : Nat) (d : BitVec (8 * c.bmax)), 256 ≤ p.toNat → n ≤ bszOf p.toNat →
    (packer c d n p).rangeErr = false)

/-- R84: BMAX is the largest block size, reached by every modulus from `2^(8*BMAX)` on, and the table of bands of the
reference configuration. -/
def Obligations.LargestBlockSize : Prop :=
  (∀ (c : Params) (p : BitVec c.pw),
    bszOf p.toNat ≤ c.bmax ∧ (2 ^ (8 * c.bmax) ≤ p.toNat → bszOf p.toNat = c.bmax) ∧
    (p.toNat = 2 ^ c.pw - 1 → bszOf p.toNat = c.bmax)) ∧
  (∀ p : BitVec Config.reference.pw,
    (p.toNat = 0 → bitlen p.toNat = 0 ∧ bszOf p.toNat = 0 ∧ (bsc _ p).cfgErr = true) ∧
    (1 ≤ p.toNat ∧ p.toNat ≤ 255 →
      1 ≤ bitlen p.toNat ∧ bitlen p.toNat ≤ 8 ∧ bszOf p.toNat = 0 ∧ (bsc _ p).cfgErr = true) ∧
    (256 ≤ p.toNat ∧ p.toNat ≤ 65535 →
      9 ≤ bitlen p.toNat ∧ bitlen p.toNat ≤ 16 ∧ bszOf p.toNat = 1 ∧ (bsc _ p).cfgErr = false) ∧
    (65536 ≤ p.toNat ∧ p.toNat ≤ 16777215 →
      17 ≤ bitlen p.toNat ∧ bitlen p.toNat ≤ 24 ∧ bszOf p.toNat = 2 ∧ (bsc _ p).cfgErr = false) ∧
    (16777216 ≤ p.toNat ∧ p.toNat ≤ 4294967295 →
      25 ≤ bitlen p.toNat ∧ bitlen p.toNat ≤ 32 ∧ bszOf p.toNat = 3 ∧ (bsc _ p).cfgErr = false))

/-- R100 and R102: PACKER's value is the big-endian value of the first `n` lanes, and its error is exactly a value at
or above `p`. -/
def Obligations.PackerComputesBigEndianValue : Prop :=
  ∀ (c : Params) (d : BitVec (8 * c.bmax)) (n : Nat) (p : BitVec c.pw), n ≤ c.bmax →
    (packer c d n p).v.toNat = be (lane d) n ∧
    ((packer c d n p).rangeErr = true ↔ p.toNat ≤ be (lane d) n)

/-- R101: the packed value, a sum of naturals without bound, fits the PW-bit result without wrap-around, and the lanes
from `n` on do not enter it. -/
def Obligations.PackedValueFits : Prop :=
  ∀ (c : Params) (d d' : BitVec (8 * c.bmax)) (n : Nat) (p : BitVec c.pw), n ≤ c.bmax →
    (packer c d n p).v.toNat = be (lane d) n ∧
    be (lane d) n < 2 ^ (8 * n) ∧ 2 ^ (8 * n) ≤ 2 ^ (8 * c.bmax) ∧ 2 ^ (8 * c.bmax) ≤ 2 ^ (c.pw - 1) ∧
    ((∀ i < n, lane d i = lane d' i) → packer c d n p = packer c d' n p)

/-- R120 and R121: UNPACKER's two errors, and its lanes where no length error leaves them unused: the `w`-byte image,
and 0 from lane `w` on. -/
def Obligations.UnpackerComputesImage : Prop :=
  ∀ (c : Params) (m : BitVec c.pw) (w : Nat) (p : BitVec c.pw), 1 ≤ w → w ≤ c.bmax →
    ((unpacker c m w p).rangeErr = true ↔ p.toNat ≤ m.toNat) ∧
    ((unpacker c m w p).lenErr = true ↔ 2 ^ (8 * w) ≤ m.toNat) ∧
    (m.toNat < 2 ^ (8 * w) → ∀ i < c.bmax,
      (lane (unpacker c m w p).q i).toNat = if i < w then m.toNat / 256 ^ (w - 1 - i) % 256 else 0)

/-- R122: the length check is the source's minimal-representation test, and padding the minimal image on the left with
zeros gives the `w`-byte image. -/
def Obligations.LengthCheckIsMinimalImageTest : Prop :=
  ∀ m w : Nat, 1 ≤ m →
    (w < (bitlen m + 7) / 8 ↔ 8 * w < bitlen m) ∧ (8 * w < bitlen m ↔ 2 ^ (8 * w) ≤ m) ∧
    (m < 2 ^ (8 * w) →
      List.replicate (w - (bitlen m + 7) / 8) (0 : Byte) ++ bytesBe m ((bitlen m + 7) / 8) = bytesBe m w)

/-! ## The request word -/

/-- Decoding an encoded well-formed operation gives it back, in every configuration, with every operand at every value
its field admits (R61 to R65). -/
def Obligations.DecodeEncodeAgree : Prop :=
  ∀ (c : Params) (i : Instr), WellFormed c i = true → decode c (encode c i) = i

/-- R61: the width of a request word and the position of each field; the five fields make up the word again, so no bit
of it is dropped. -/
def Obligations.RequestWordLayout : Prop :=
  ∀ c : Params,
    c.rw = 2 + c.pw + 8 * c.bmax + c.lw + c.iw ∧ Config.reference.rw = 76 ∧
    ∀ w : BitVec c.rw,
      (Request.ofWord w).op.toNat = w.toNat % 2 ^ 2 ∧
      (Request.ofWord w).argInt.toNat = w.toNat / 2 ^ 2 % 2 ^ c.pw ∧
      (Request.ofWord w).argBytes.toNat = w.toNat / 2 ^ (c.pw + 2) % 2 ^ (8 * c.bmax) ∧
      (Request.ofWord w).argLen.toNat = w.toNat / 2 ^ (c.pw + 8 * c.bmax + 2) % 2 ^ c.lw ∧
      (Request.ofWord w).argIdx.toNat = w.toNat / 2 ^ (c.pw + 8 * c.bmax + c.lw + 2) % 2 ^ c.iw ∧
      (Request.ofWord w).toWord = w

/-- R63: each of the four values of `op` selects its operation; what every word decodes to is well formed (R66). -/
def Obligations.EveryOpSelectsItsOperation : Prop :=
  ∀ (c : Params) (w : BitVec c.rw),
    (w.toNat % 4 = 0 → decode c w = .nop) ∧
    (w.toNat % 4 = 1 → ∃ p, decode c w = .cfg p) ∧
    (w.toNat % 4 = 2 → ∃ k n lanes, decode c w = .pack k n lanes) ∧
    (w.toNat % 4 = 3 → ∃ k b m, decode c w = .unpack k b m) ∧
    WellFormed c (decode c w) = true

/-- R64: a field an operation ignores has no effect: two requests of one `op` that agree on the fields it uses do the
same in every state. -/
def Obligations.IgnoredFieldsHaveNoEffect : Prop :=
  ∀ (s : State) (r r' : Request s.cfg), r.op = r'.op →
    (r.op = 0b00#2 → exec r.instr s = exec r'.instr s) ∧
    (r.op = 0b01#2 → r.argInt = r'.argInt → exec r.instr s = exec r'.instr s) ∧
    (r.op = 0b10#2 → r.argIdx = r'.argIdx → r.argLen = r'.argLen →
      (∀ i < r.argLen.toNat, lane r.argBytes i = lane r'.argBytes i) → exec r.instr s = exec r'.instr s) ∧
    (r.op = 0b11#2 → r.argIdx = r'.argIdx → r.argLen = r'.argLen → r.argInt = r'.argInt →
      exec r.instr s = exec r'.instr s)

/-- R70: the request words of the spec's table, each from its line of assembler text. -/
def Obligations.RequestWordsOfTheTable : Prop :=
  ["NOP", "CFG 10007", "CFG 255", "CFG 65537", "PACK 0, 1, 0x41", "PACK 1, 1, 0x00", "PACK 2, 1, 0xFF",
    "PACK 0, 2, 0x41, 0x42", "PACK 1, 1, 0x43", "UNPACK 0, 1, 65", "UNPACK 0, 2, 16706", "UNPACK 1, 1, 67",
    "UNPACK 1, 1, 10007", "UNPACK 2, 1, 300"].map
    (fun line => (assembleText Config.reference line).map BitVec.toNat) =
  [some 0x0000000000000000000, some 0x0000000000000009C5D, some 0x00000000000000003FD,
    some 0x0000000000000040005, some 0x0000400010400000002, some 0x0001400000000000002,
    some 0x000240003FC00000002, some 0x0000801090400000002, some 0x0001400010C00000002,
    some 0x0000400000000000107, some 0x000080000000001050B, some 0x000140000000000010F,
    some 0x0001400000000009C5F, some 0x00024000000000004B3]

/-- Words written out from the encoding table decode to the operations they stand for (R61 to R64): one for each
operation. -/
def Obligations.WordsDecodeToTheirOperations : Prop :=
  decode Config.reference 0x0#76 = .nop ∧
  decode Config.reference 0x9C5D#76 = .cfg 10007 ∧
  decode Config.reference 0x0000801090400000002#76 = .pack 0 2 [0x41, 0x42, 0x00] ∧
  decode Config.reference 0x00024000000000004B3#76 = .unpack 2 1 300

/-- R68: what the assembler accepts is well formed with its unused lanes 0, and a PACK whose list length is not `n`, or
whose `n` is 0 or above BMAX, is rejected. -/
def Obligations.AssemblerAcceptsOnlyWhatFits : Prop :=
  ∀ c : Params,
    (∀ l i, assemble c l = some i → WellFormed c i = true) ∧
    (∀ k n bytes, bytes.length ≠ n ∨ n = 0 ∨ c.bmax < n → assemble c (.pack k n bytes) = none) ∧
    (∀ k n bytes i, assemble c (.pack k n bytes) = some i →
      ∃ lanes : List Byte, i = .pack k n lanes ∧
        ∀ j < c.bmax, (lanes.getD j 0).toNat = if j < n then bytes.getD j 0 else 0)

/-! ## NOP and CFG -/

/-- R86: NOP writes DONE and nothing else, whatever ERR and CFGD hold. -/
def Obligations.NopClearsDoneOnly : Prop :=
  ∀ s : State, exec .nop s = .next (s.withBcu { s.bcu with done := false })

/-- R85: CFG answers a next state in every state; it writes every register, and nothing but registers. -/
def Obligations.CfgStartsRun : Prop :=
  ∀ (s : State) (p : Nat), p < 2 ^ s.cfg.pw →
    ∃ u : Bcu s.cfg, exec (.cfg p) s = .next (s.withBcu u) ∧
      u.p.toNat = p ∧ u.bitlen.toNat = bitlen p ∧ u.bsz.toNat = (bitlen p - 1) / 8 ∧
      u.resInt = 0 ∧ u.resBytes = 0 ∧ u.resLen = 0 ∧ u.errIdx = 0 ∧
      (p < 256 → u.cfgd = false ∧ u.err = 1 ∧ u.done = false) ∧
      (256 ≤ p → u.cfgd = true ∧ u.err = 0 ∧ u.done = true)

/-! ## PACK -/

/-- R105: the cases of PACK in their order of precedence (R173), its two outcomes among them. The premise `n <= BMAX` of
the last two is PACKER's domain (R100); BSZ is never above BMAX (R84), so in a reachable state it holds of itself. -/
def Obligations.PackFollowsItsRule : Prop :=
  ∀ (s : State) (k n : Nat) (lanes : List Byte), WellFormed s.cfg (.pack k n lanes) = true →
    (s.bcu.err ≠ 0 → exec (.pack k n lanes) s = .next (s.withBcu { s.bcu with done := false })) ∧
    (s.bcu.err = 0 → s.bcu.cfgd = false → exec (.pack k n lanes) s =
      .next (s.withBcu { s.bcu with err := 7, errIdx := BitVec.ofNat _ k, done := false })) ∧
    (s.bcu.err = 0 → s.bcu.cfgd = true → n = 0 ∨ s.bcu.bsz.toNat < n → exec (.pack k n lanes) s =
      .next (s.withBcu { s.bcu with err := 6, errIdx := BitVec.ofNat _ k, done := false })) ∧
    (s.bcu.err = 0 → s.bcu.cfgd = true → 1 ≤ n → n ≤ s.bcu.bsz.toNat → n ≤ s.cfg.bmax →
      (s.bcu.p.toNat ≤ be (fun i => lanes.getD i 0) n → exec (.pack k n lanes) s =
        .next (s.withBcu { s.bcu with err := 2, errIdx := BitVec.ofNat _ k, done := false })) ∧
      (be (fun i => lanes.getD i 0) n < s.bcu.p.toNat →
        ∃ v : BitVec s.cfg.pw, v.toNat = be (fun i => lanes.getD i 0) n ∧
          exec (.pack k n lanes) s = .next (s.withBcu { s.bcu with resInt := v, done := true })))

/-- R103: in a configured run the range check of PACK never fires, whatever the lanes hold, so a PACK of 1 to BSZ bytes
always completes. The invariants (R33) say that BSZ is the block size of P. -/
def Obligations.PackNeverRaisesEncRange : Prop :=
  ∀ (s : State) (k n : Nat) (lanes : List Byte), WellFormed s.cfg (.pack k n lanes) = true →
    s.bcu.Inv → s.bcu.cfgd = true → 1 ≤ n → n ≤ s.bcu.bsz.toNat →
    (∀ d, (packer s.cfg d n s.bcu.p).rangeErr = false ∧ be (lane d) n < 2 ^ (8 * n)) ∧
    2 ^ (8 * n) ≤ 2 ^ (8 * s.bcu.bsz.toNat) ∧ 2 ^ (8 * s.bcu.bsz.toNat) ≤ s.bcu.p.toNat ∧
    (s.bcu.err = 0 → ∃ v : BitVec s.cfg.pw, v.toNat = be (fun i => lanes.getD i 0) n ∧
      exec (.pack k n lanes) s = .next (s.withBcu { s.bcu with resInt := v, done := true }))

/-! ## UNPACK -/

/-- R125: the cases of UNPACK in their order of precedence (R173), its outcomes among them: a value at or above P is
DEC_RANGE even if it is too long as well; a value that fits is written as its big-endian image, with zeros in the lanes
above. The premise `w <= BMAX` is UNPACKER's domain (R120), which in a reachable state holds of itself (R84). -/
def Obligations.UnpackFollowsItsRule : Prop :=
  ∀ (s : State) (k w m : Nat), WellFormed s.cfg (.unpack k w m) = true →
    (s.bcu.err ≠ 0 → exec (.unpack k w m) s = .next (s.withBcu { s.bcu with done := false })) ∧
    (s.bcu.err = 0 → s.bcu.cfgd = false → exec (.unpack k w m) s =
      .next (s.withBcu { s.bcu with err := 7, errIdx := BitVec.ofNat _ k, done := false })) ∧
    (s.bcu.err = 0 → s.bcu.cfgd = true → w = 0 ∨ s.bcu.bsz.toNat < w → exec (.unpack k w m) s =
      .next (s.withBcu { s.bcu with err := 6, errIdx := BitVec.ofNat _ k, done := false })) ∧
    (s.bcu.err = 0 → s.bcu.cfgd = true → 1 ≤ w → w ≤ s.bcu.bsz.toNat → w ≤ s.cfg.bmax →
      (s.bcu.p.toNat ≤ m → exec (.unpack k w m) s =
        .next (s.withBcu { s.bcu with err := 3, errIdx := BitVec.ofNat _ k, done := false })) ∧
      (m < s.bcu.p.toNat → 2 ^ (8 * w) ≤ m → exec (.unpack k w m) s =
        .next (s.withBcu { s.bcu with err := 4, errIdx := BitVec.ofNat _ k, done := false })) ∧
      (m < s.bcu.p.toNat → m < 2 ^ (8 * w) →
        ∃ (q : BitVec (8 * s.cfg.bmax)) (l : BitVec s.cfg.lw), l.toNat = w ∧
          exec (.unpack k w m) s = .next (s.withBcu { s.bcu with resBytes := q, resLen := l, done := true }) ∧
          ∀ i < s.cfg.bmax, (lane q i).toNat = if i < w then m / 256 ^ (w - 1 - i) % 256 else 0))

/-- R123: 0 unpacks to `w` zero bytes, RES_LEN says `w`, and LEN_OVF is not raised. -/
def Obligations.ZeroUnpacksToZeroBytes : Prop :=
  ∀ (s : State) (k w : Nat), WellFormed s.cfg (.unpack k w 0) = true →
    s.bcu.Inv → s.bcu.err = 0 → s.bcu.cfgd = true → 1 ≤ w → w ≤ s.bcu.bsz.toNat →
    exec (.unpack k w 0) s =
      .next (s.withBcu { s.bcu with resBytes := 0, resLen := BitVec.ofNat _ w, done := true })

/-- R16, R105 and R125 together: what PACK made of `n` lanes, UNPACK at width `n` gives back lane by lane. -/
def Obligations.UnpackInvertsPack : Prop :=
  ∀ (s : State) (k n : Nat) (lanes : List Byte), WellFormed s.cfg (.pack k n lanes) = true →
    s.bcu.Inv → s.bcu.err = 0 → s.bcu.cfgd = true → 1 ≤ n → n ≤ s.bcu.bsz.toNat →
    ∃ u v : Bcu s.cfg, exec (.pack k n lanes) s = .next (s.withBcu u) ∧
      exec (.unpack k n u.resInt.toNat) (s.withBcu u) = .next (s.withBcu v) ∧
      v.done = true ∧ v.resLen.toNat = n ∧
      ∀ i < s.cfg.bmax, lane v.resBytes i = if i < n then lanes.getD i 0 else 0

/-! ## What the operations leave unchanged -/

/-- The frame of each operation (R27 to R31, R86, R105, R125): whatever its outcome, an operation changes registers only,
and of these only the ones named for it. -/
def Obligations.OperationFrames : Prop :=
  ∀ s : State,
    (∃ u : Bcu s.cfg, exec .nop s = .next (s.withBcu u) ∧
      u.p = s.bcu.p ∧ u.bitlen = s.bcu.bitlen ∧ u.bsz = s.bcu.bsz ∧ u.cfgd = s.bcu.cfgd ∧ u.err = s.bcu.err ∧
      u.errIdx = s.bcu.errIdx ∧ u.resInt = s.bcu.resInt ∧ u.resBytes = s.bcu.resBytes ∧
      u.resLen = s.bcu.resLen) ∧
    (∀ k n lanes, ∃ u : Bcu s.cfg, exec (.pack k n lanes) s = .next (s.withBcu u) ∧
      u.p = s.bcu.p ∧ u.bitlen = s.bcu.bitlen ∧ u.bsz = s.bcu.bsz ∧ u.cfgd = s.bcu.cfgd ∧
      u.resBytes = s.bcu.resBytes ∧ u.resLen = s.bcu.resLen ∧
      (u.done = false → u.resInt = s.bcu.resInt) ∧
      (u.done = true → u.err = s.bcu.err ∧ u.errIdx = s.bcu.errIdx)) ∧
    (∀ k w m, ∃ u : Bcu s.cfg, exec (.unpack k w m) s = .next (s.withBcu u) ∧
      u.p = s.bcu.p ∧ u.bitlen = s.bcu.bitlen ∧ u.bsz = s.bcu.bsz ∧ u.cfgd = s.bcu.cfgd ∧
      u.resInt = s.bcu.resInt ∧
      (u.done = false → u.resBytes = s.bcu.resBytes ∧ u.resLen = s.bcu.resLen) ∧
      (u.done = true → u.err = s.bcu.err ∧ u.errIdx = s.bcu.errIdx)) ∧
    (∀ p, ∃ u : Bcu s.cfg, exec (.cfg p) s = .next (s.withBcu u))

/-- R172: an operation on a block that latches an error records the error and the block index, clears DONE, and writes
no other register; CFG writes CONFIG with the index 0 through its own rule. -/
def Obligations.RaiseWritesErrIdxAndDone : Prop :=
  (∀ (s : State) (k n m : Nat) (lanes : List Byte) (i : Instr),
    i = .pack k n lanes ∨ i = .unpack k n m →
    ∃ u : Bcu s.cfg, exec i s = .next (s.withBcu u) ∧
      (u.err ≠ s.bcu.err →
        u = { s.bcu with err := u.err, errIdx := BitVec.ofNat _ k, done := false })) ∧
  (∀ (s : State) (p : Nat), p < 256 →
    ∃ u : Bcu s.cfg, exec (.cfg p) s = .next (s.withBcu u) ∧ u.err = 1 ∧ u.errIdx = 0)

/-- R174: a block operation presented while an error is latched performs only DONE <- 0. -/
def Obligations.LatchedErrorRefusesBlocks : Prop :=
  ∀ s : State, s.bcu.err ≠ 0 →
    (∀ k n lanes, exec (.pack k n lanes) s = .next (s.withBcu { s.bcu with done := false })) ∧
    (∀ k w m, exec (.unpack k w m) s = .next (s.withBcu { s.bcu with done := false }))

/-- R47: presenting any operation twice in a row leaves the same state as once, whether it completed, raised an error or
was refused. -/
def Obligations.OperationsAreIdempotent : Prop :=
  ∀ (s : State) (i : Instr) (u : Bcu s.cfg), exec i s = .next (s.withBcu u) →
    exec i (s.withBcu u) = .next (s.withBcu u)

/-! ## Reset, the clock edge and the invariants -/

/-- R190 and R191: at an edge with `rst` high every register takes 0, in any state (so also at power-on, R193) and
whatever request is presented. -/
def Obligations.ResetEdgeClearsRegisters : Prop :=
  ∀ s : State, s.rstNow = true →
    ∃ h : Harness s.cfg, step s =
      .next ⟨s.cfg, ⟨0, 0, 0, false, 0, 0, false, 0, 0, 0⟩, s.rst.tail, h⟩

/-- R190, R192 and R32: right after reset, in every configuration, every register is 0, the registers meet the invariants
of R33, and a PACK or UNPACK raises UNCONFIGURED. -/
def Obligations.ResetStateIsUnconfigured : Prop :=
  ∀ c : Params,
    (State.resetOf c).bcu = ⟨0, 0, 0, false, 0, 0, false, 0, 0, 0⟩ ∧ (State.resetOf c).bcu.Inv ∧
    (∀ k n lanes, exec (.pack k n lanes) (State.resetOf c) =
      .next { State.resetOf c with bcu := { Bcu.reset c with err := 7, errIdx := BitVec.ofNat _ k } }) ∧
    (∀ k w m, exec (.unpack k w m) (State.resetOf c) =
      .next { State.resetOf c with bcu := { Bcu.reset c with err := 7, errIdx := BitVec.ofNat _ k } })

/-- A step runs the decoded request (R60, R194): with no procedure running and `rst` low, the word the host presents is
decoded and executed in the same cycle, its place in the host's list and the level of `rst` used up; a word placed with
`withFetchWord` is the next to run. -/
def Obligations.StepRunsPresentedRequest : Prop :=
  (∀ (s : State) (w : BitVec s.cfg.rw) (rest : List (Action s.cfg)),
    s.harness.ctl = .idle → s.harness.todo = .present w :: rest → s.rstNow = false →
    step s = exec (decode s.cfg w) { s with rst := s.rst.tail, harness := { s.harness with todo := rest } }) ∧
  (∀ (s : State) (nbits w : Nat),
    step (s.withFetchWord nbits w) =
      exec (decode s.cfg (BitVec.ofNat _ w))
        { s with rst := s.rst.tail, harness := { s.harness with ctl := .idle } })

/-- R66, R176 and R195: no clock edge stops the machine, in any state, since every request has an effect (the deduction of
log entry 17). That the parameters never change and that one level of `rst` is used up are the model's form of the
parameters and of the pin (log entries 1 and 4). -/
def Obligations.StepAlwaysCompletes : Prop :=
  ∀ s : State, ∃ t : State, step s = .next t ∧ t.cfg = s.cfg ∧ t.rst = s.rst.tail

/-- R33: the invariants of the registers hold after every clock edge, with or without reset, and after every operation,
if they held before. -/
def Obligations.StepKeepsInvariants : Prop :=
  (∀ s t : State, s.bcu.Inv → step s = .next t → t.bcu.Inv) ∧
  (∀ (s t : State) (i : Instr), s.bcu.Inv → exec i s = .next t → t.bcu.Inv)

/-- R26: ERR only ever holds the codes 0, 1, 2, 3, 4, 6 and 7. -/
def Obligations.StepKeepsErrLegal : Prop :=
  ∀ s t : State, s.bcu.LegalErr → step s = .next t → t.bcu.LegalErr

/-- R103: ENC_RANGE is never latched, and a packed integer is below the modulus of its run (R32). -/
def Obligations.EncRangeNeverLatched : Prop :=
  ∀ s t : State, s.bcu.Inv → s.bcu.err ≠ ErrCode.encRange.code →
    (s.bcu.cfgd = true → s.bcu.resInt.toNat < s.bcu.p.toNat) → step s = .next t →
    t.bcu.err ≠ ErrCode.encRange.code ∧ (t.bcu.cfgd = true → t.bcu.resInt.toNat < t.bcu.p.toNat)

/-- R175 and R177: a latched error is left only by reset and by CFG; at any other edge ERR and ERR_IDX keep the first
error. -/
def Obligations.FirstErrorIsKept : Prop :=
  ∀ s t : State, s.bcu.err ≠ 0 → step s = .next t → s.rstNow = false →
    (∀ p, decode s.cfg s.sample.1 ≠ .cfg p) →
    t.bcu.err = s.bcu.err ∧ t.bcu.errIdx.toNat = s.bcu.errIdx.toNat ∧ t.bcu.done = false

/-- R28: DONE is 1 after an edge exactly if the operation of that edge was a CFG, PACK or UNPACK that completed without
error; it is 0 after reset. -/
def Obligations.DoneMeansCompleted : Prop :=
  ∀ s t : State, step s = .next t →
    (s.rstNow = true → t.bcu.done = false) ∧
    (s.rstNow = false → (t.bcu.done = true ↔ decode s.cfg s.sample.1 ≠ .nop ∧ t.bcu.err = 0))

/-- R32: every register is driven on the output port of its name. -/
def Obligations.PortsDriveRegisters : Prop :=
  ∀ (c : Params) (u : Bcu c),
    u.ports = ⟨u.p, u.bitlen, u.bsz, BitVec.ofBool u.cfgd, u.err, u.errIdx, BitVec.ofBool u.done, u.resInt, u.resBytes,
      u.resLen⟩

/-- R34 and R50: what an operation does to the registers depends on the registers alone, not on what else the machine
holds. -/
def Obligations.RegistersAreTheWholeState : Prop :=
  ∀ (c : Params) (i : Instr) (u : Bcu c), ∃ v : Bcu c, ∀ (r : List Bool) (h : Harness c),
    exec i ⟨c, u, r, h⟩ = .next ⟨c, v, r, h⟩

/-! ## The harness: ENCODE and DECODE

In every statement of this section the registers, the cycles the harness waits in and what the host does afterwards are
arbitrary, and `rst` stays low (`State.Calls`). The form in which the host's actions, the waits and the cipher's answers
stand in the state is the model's (log entries 3, 5, 6 and 11). -/

/-- R141 and R142: for a modulus of at least 256 and a block count the index can name, ENCODE returns OK with the
big-endian value of each chunk, each below `2^(8 n_k)` and so below the modulus. -/
def Obligations.EncodeReturnsBlockSequence : Prop :=
  ∀ (s : State) (buf : List Byte) (p : BitVec s.cfg.pw), s.Calls (.encode buf p) → 256 ≤ p.toNat →
    blockCount buf.length (bszOf p.toNat) ≤ 2 ^ s.cfg.iw →
    ∃ ints : List (BitVec s.cfg.pw), s.Returns (.okInts ints) ∧
      ints.map BitVec.toNat = blockInts buf (bszOf p.toNat) ∧
      ∀ k < blockCount buf.length (bszOf p.toNat),
        (ints.getD k 0).toNat < 2 ^ (8 * chunkLen buf.length (bszOf p.toNat) k) ∧
        2 ^ (8 * chunkLen buf.length (bszOf p.toNat) k) ≤ p.toNat

/-- R141, R142, R150 and R157: for a modulus below 256 ENCODE and DECODE return FAIL(CONFIG, 0), and so does VERIFY, after
keygen and with no other call of the cipher (R155). -/
def Obligations.SmallModulusFailsConfig : Prop :=
  ∀ s : State,
    (∀ (p : BitVec s.cfg.pw) buf, p.toNat < 256 → s.Calls (.encode buf p) → s.Returns (.fail 1 0)) ∧
    (∀ (p : BitVec s.cfg.pw) ints len, p.toNat < 256 → s.Calls (.decode ints p len) → s.Returns (.fail 1 0)) ∧
    (∀ (v : VerifyArgs s.cfg) key keys, v.p.toNat < 256 → s.Calls (.verify v) →
      s.harness.oracle.keys = key :: keys →
      s.ReturnsAfterCalls (.fail 1 0) [.keygen v.p v.a v.p0 key])

/-- R142 and D8: with a modulus below 256 no byte of the buffer reaches the request port: two machines that differ only
in the buffer to encode present the same requests for ever. -/
def Obligations.ConfigErrorReadsNoByte : Prop :=
  ∀ (c : Params) (u : Bcu c) (r : List Bool) (h : Harness c) (buf buf' : List Byte) (p : BitVec c.pw) (n : Nat),
    h.ctl = .idle → p.toNat < 256 → (∀ level ∈ r, level = false) →
    presented n ⟨c, u, r, { h with todo := [.call (.encode buf p)] }⟩ =
    presented n ⟨c, u, r, { h with todo := [.call (.encode buf' p)] }⟩

/-- R69, R141 and R200: but for idle cycles, ENCODE presents one CFG and then one PACK for each block, in block order,
with the bytes of its chunk and 0 in the other lanes. -/
def Obligations.EncodePresentsOnePackPerBlock : Prop :=
  ∀ (s : State) (buf : List Byte) (p : BitVec s.cfg.pw), s.Calls (.encode buf p) →
    s.harness.todo = [.call (.encode buf p)] → 256 ≤ p.toNat →
    blockCount buf.length (bszOf p.toNat) ≤ 2 ^ s.cfg.iw →
    ∃ n t, runFor n s = .next t ∧ t.harness.ctl = .idle ∧
      (presented n s).filter (fun i => decide (i ≠ .nop)) =
        .cfg p.toNat :: (List.range (blockCount buf.length (bszOf p.toNat))).map fun k =>
          .pack k (chunkLen buf.length (bszOf p.toNat) k)
            (chunkLanes s.cfg (chunk buf (bszOf p.toNat) k))

/-- R150: with the block count of an ENCODE of `L` bytes, and every integer below the modulus and within the width of its
block, DECODE returns OK with the big-endian images of the integers, `L` bytes in all. -/
def Obligations.DecodeReturnsImages : Prop :=
  ∀ (s : State) (ints : List Nat) (p : BitVec s.cfg.pw) (len : Nat),
    s.Calls (.decode ints p len) → 256 ≤ p.toNat →
    ints.length = blockCount len (bszOf p.toNat) → ints.length ≤ 2 ^ s.cfg.iw →
    (∀ k < ints.length, ints.getD k 0 < p.toNat ∧
      ints.getD k 0 < 2 ^ (8 * blockWidth len (bszOf p.toNat) ints.length k)) →
    ∃ out : List Byte, s.Returns (.okBytes out) ∧ out.length = len ∧
      out = ((List.range ints.length).map fun k =>
        bytesBe (ints.getD k 0) (blockWidth len (bszOf p.toNat) ints.length k)).flatten

/-- R69, R150, R152, R155 and R200: but for idle cycles, DECODE presents one CFG and then one UNPACK for each block, in block
order, at the width of the block, up to the end or to the first block that fails, which is the last it presents: `m` is
the number of blocks before that one. An integer too large for the request port is presented as the largest that fits
(log entry 6). -/
def Obligations.DecodePresentsOneUnpackPerBlock : Prop :=
  ∀ (s : State) (ints : List Nat) (p : BitVec s.cfg.pw) (len m : Nat), s.Calls (.decode ints p len) →
    s.harness.todo = [.call (.decode ints p len)] → 256 ≤ p.toNat →
    ints.length = blockCount len (bszOf p.toNat) → ints.length ≤ 2 ^ s.cfg.iw → m ≤ ints.length →
    (∀ k < m, ints.getD k 0 < p.toNat ∧ ints.getD k 0 < 2 ^ (8 * blockWidth len (bszOf p.toNat) ints.length k)) →
    (m < ints.length → p.toNat ≤ ints.getD m 0 ∨
      2 ^ (8 * blockWidth len (bszOf p.toNat) ints.length m) ≤ ints.getD m 0) →
    ∃ n t, runFor n s = .next t ∧ t.harness.ctl = .idle ∧
      (presented n s).filter (fun i => decide (i ≠ .nop)) =
        .cfg p.toNat :: (List.range (min (m + 1) ints.length)).map fun k =>
          .unpack k (blockWidth len (bszOf p.toNat) ints.length k) (min (ints.getD k 0) (2 ^ s.cfg.pw - 1))

/-- R151: DECODE returns FAIL(BLOCKCOUNT, 0) unless the number of integers is `ceil(L / B)`. -/
def Obligations.WrongBlockCountFails : Prop :=
  ∀ (s : State) (ints : List Nat) (p : BitVec s.cfg.pw) (len : Nat),
    s.Calls (.decode ints p len) → 256 ≤ p.toNat →
    ints.length ≠ (len + bszOf p.toNat - 1) / bszOf p.toNat →
    s.Returns (.fail 8 0)

/-- R125, R150 and R155: DECODE returns the first block that fails with its index: DEC_RANGE for an integer at or above
the modulus, of whatever size, LEN_OVF for one below it that its width cannot hold. -/
def Obligations.DecodeReportsFirstBadBlock : Prop :=
  ∀ (s : State) (ints : List Nat) (p : BitVec s.cfg.pw) (len k : Nat),
    s.Calls (.decode ints p len) → 256 ≤ p.toNat →
    ints.length = blockCount len (bszOf p.toNat) → ints.length ≤ 2 ^ s.cfg.iw → k < ints.length →
    (∀ j < k, ints.getD j 0 < p.toNat ∧
      ints.getD j 0 < 2 ^ (8 * blockWidth len (bszOf p.toNat) ints.length j)) →
    (p.toNat ≤ ints.getD k 0 → s.Returns (.fail 3 k)) ∧
    (ints.getD k 0 < p.toNat →
      2 ^ (8 * blockWidth len (bszOf p.toNat) ints.length k) ≤ ints.getD k 0 → s.Returns (.fail 4 k))

/-- R143 and R157: a run of more than `2^IW` blocks is REFUSED, and the CFG is the only request but idle cycles; a VERIFY of
so many blocks returns REFUSED after keygen and with no other call of the cipher. -/
def Obligations.TooManyBlocksRefused : Prop :=
  ∀ s : State,
    (∀ (p : BitVec s.cfg.pw) (buf : List Byte), 256 ≤ p.toNat → s.Calls (.encode buf p) →
      s.harness.todo = [.call (.encode buf p)] →
      2 ^ s.cfg.iw < blockCount buf.length (bszOf p.toNat) →
      s.Returns .refused ∧ ∀ n, ∀ i ∈ presented n s, i = .nop ∨ i = .cfg p.toNat) ∧
    (∀ (p : BitVec s.cfg.pw) (ints : List Nat) (len : Nat), 256 ≤ p.toNat → s.Calls (.decode ints p len) →
      s.harness.todo = [.call (.decode ints p len)] →
      ints.length = blockCount len (bszOf p.toNat) → 2 ^ s.cfg.iw < ints.length →
      s.Returns .refused ∧ ∀ n, ∀ i ∈ presented n s, i = .nop ∨ i = .cfg p.toNat) ∧
    (∀ (v : VerifyArgs s.cfg) key keys, 256 ≤ v.p.toNat → s.Calls (.verify v) →
      s.harness.todo = [.call (.verify v)] → s.harness.oracle.keys = key :: keys →
      2 ^ s.cfg.iw < blockCount v.src.length (bszOf v.p.toNat) →
      s.ReturnsAfterCalls .refused [.keygen v.p v.a v.p0 key] ∧
      ∀ n, ∀ i ∈ presented n s, i = .nop ∨ i = .cfg v.p.toNat)

/-- R159: the codec round trip. ENCODE returns OK(ints), and DECODE of these integers with the modulus and the length
returns the buffer. -/
def Obligations.CodecRoundTrip : Prop :=
  ∀ (s : State) (buf : List Byte) (p : BitVec s.cfg.pw), s.Calls (.encode buf p) → 256 ≤ p.toNat →
    blockCount buf.length (bszOf p.toNat) ≤ 2 ^ s.cfg.iw →
    ∃ ints : List (BitVec s.cfg.pw), s.Returns (.okInts ints) ∧
      ∀ (u : Bcu s.cfg) (r : List Bool) (h : Harness s.cfg),
        State.Calls ⟨s.cfg, u, r, h⟩ (.decode (ints.map BitVec.toNat) p buf.length) →
        State.Returns ⟨s.cfg, u, r, h⟩ (.okBytes buf)

/-! ## The harness: VERIFY -/

/-- R160, first part, with R152 and R157: if the cipher returns keys, a record for every block, and from decrypt the
integers of ENCODE, then VERIFY returns PASS, and the cipher was called once for keygen, once for the encryption of each
integer and once for the decryption of each record, in block order (log entry 13), with the arguments of R157. -/
def Obligations.VerifyPassesWithHonestCipher : Prop :=
  ∀ (s : State) (v : VerifyArgs s.cfg) (key : Keys) (keys : List Keys) (records moreRecords : List Record)
    (morePlains : List Nat), s.Calls (.verify v) →
    256 ≤ v.p.toNat → blockCount v.src.length (bszOf v.p.toNat) ≤ 2 ^ s.cfg.iw →
    s.harness.oracle.keys = key :: keys →
    s.harness.oracle.records = records ++ moreRecords →
    records.length = blockCount v.src.length (bszOf v.p.toNat) →
    s.harness.oracle.plains = blockInts v.src (bszOf v.p.toNat) ++ morePlains →
    ∃ ints : List (BitVec s.cfg.pw), ints.map BitVec.toNat = blockInts v.src (bszOf v.p.toNat) ∧
      s.ReturnsAfterCalls .pass (verifyCalls v key ints records (blockInts v.src (bszOf v.p.toNat)))

/-- R152, R153 and R157 steps 1 to 7, whatever the cipher answers: before its DECODE, VERIFY has called keygen, encrypted the
integer of each block with the keys and parameters, stored the Bundle with record `k` at index `k`, and decrypted record
`k` as the integer at index `k`; these integers, of whatever size, are what it then decodes. The calls stand in block
order (log entry 13). -/
def Obligations.VerifyCallsCipherByIndex : Prop :=
  ∀ (s : State) (v : VerifyArgs s.cfg) (key : Keys) (keys : List Keys) (records moreRecords : List Record)
    (plains morePlains : List Nat), s.Calls (.verify v) →
    256 ≤ v.p.toNat → blockCount v.src.length (bszOf v.p.toNat) ≤ 2 ^ s.cfg.iw →
    s.harness.oracle.keys = key :: keys →
    s.harness.oracle.records = records ++ moreRecords →
    records.length = blockCount v.src.length (bszOf v.p.toNat) →
    s.harness.oracle.plains = plains ++ morePlains →
    plains.length = blockCount v.src.length (bszOf v.p.toNat) →
    ∃ (n : Nat) (ints : List (BitVec s.cfg.pw)) (u : Bcu s.cfg) (r : List Bool) (h : Harness s.cfg),
      runFor n s = .next ⟨s.cfg, u, r, h⟩ ∧ ints.map BitVec.toNat = blockInts v.src (bszOf v.p.toNat) ∧
      h.ctl = .decodeCfg ⟨plains, v.p, v.src.length, 0, 0, [], some v.src⟩ ∧
      h.oracle.calls = s.harness.oracle.calls ++ verifyCalls v key ints records plains ∧
      h.storage = some ⟨v.p, v.a, v.p0, key.q, v.src.length, records⟩

/-- R157 and R160, second part: if decrypt returns for block `k` a value its DECODE cannot unpack, and no earlier block
fails, VERIFY returns FAIL(DEC_RANGE, k) for a value at or above the modulus, of whatever size, and FAIL(LEN_OVF, k) for
one below it that the width of the block cannot hold. -/
def Obligations.VerifyReportsOutOfRange : Prop :=
  ∀ (s : State) (v : VerifyArgs s.cfg) (k : Nat), s.Calls (.verify v) →
    256 ≤ v.p.toNat → blockCount v.src.length (bszOf v.p.toNat) ≤ 2 ^ s.cfg.iw →
    s.harness.oracle.keys ≠ [] →
    blockCount v.src.length (bszOf v.p.toNat) ≤ s.harness.oracle.records.length →
    blockCount v.src.length (bszOf v.p.toNat) ≤ s.harness.oracle.plains.length →
    k < blockCount v.src.length (bszOf v.p.toNat) →
    (∀ j < k, s.harness.oracle.plains.getD j 0 < v.p.toNat ∧
      s.harness.oracle.plains.getD j 0 < 2 ^ (8 * chunkLen v.src.length (bszOf v.p.toNat) j)) →
    (v.p.toNat ≤ s.harness.oracle.plains.getD k 0 → s.Returns (.fail 3 k)) ∧
    (s.harness.oracle.plains.getD k 0 < v.p.toNat →
      2 ^ (8 * chunkLen v.src.length (bszOf v.p.toNat) k) ≤ s.harness.oracle.plains.getD k 0 → s.Returns (.fail 4 k))

/-- R158: of two buffers of one length the comparison passes exactly if they are equal, and otherwise fails with
RT_MISMATCH at the least offset at which they differ. -/
def Obligations.ComparisonFailsAtLeastOffset : Prop :=
  ∀ (c : Params) (out src : List Byte), out.length = src.length →
    (out = src → compareBuffers (c := c) out src = .pass) ∧
    (out ≠ src → ∃ j, compareBuffers (c := c) out src = .fail 5 j ∧ j < src.length ∧
      out.getD j 0 ≠ src.getD j 0 ∧ ∀ i < j, out.getD i 0 = src.getD i 0)

/-- R158 and R160, third part: if no block fails but decrypt returns for block `k` an integer other than its own, VERIFY
returns FAIL(RT_MISMATCH, j) for the least offset `j` at which the bytes of the decrypted integers differ from the source;
it lies in block `k` or in an earlier one that differs too. -/
def Obligations.VerifyReportsMismatch : Prop :=
  ∀ (s : State) (v : VerifyArgs s.cfg) (k : Nat), s.Calls (.verify v) →
    256 ≤ v.p.toNat → blockCount v.src.length (bszOf v.p.toNat) ≤ 2 ^ s.cfg.iw →
    s.harness.oracle.keys ≠ [] →
    blockCount v.src.length (bszOf v.p.toNat) ≤ s.harness.oracle.records.length →
    blockCount v.src.length (bszOf v.p.toNat) ≤ s.harness.oracle.plains.length →
    (∀ j < blockCount v.src.length (bszOf v.p.toNat),
      s.harness.oracle.plains.getD j 0 < v.p.toNat ∧
      s.harness.oracle.plains.getD j 0 < 2 ^ (8 * chunkLen v.src.length (bszOf v.p.toNat) j)) →
    k < blockCount v.src.length (bszOf v.p.toNat) →
    s.harness.oracle.plains.getD k 0 ≠ blockInt v.src (bszOf v.p.toNat) k →
    ∃ j, s.Returns (.fail 5 j) ∧ j < v.src.length ∧
      (imageBytes s.harness.oracle.plains v.src.length (bszOf v.p.toNat)).getD j 0 ≠ v.src.getD j 0 ∧
      (∀ i < j, (imageBytes s.harness.oracle.plains v.src.length (bszOf v.p.toNat)).getD i 0 = v.src.getD i 0) ∧
      j / bszOf v.p.toNat ≤ k ∧
      s.harness.oracle.plains.getD (j / bszOf v.p.toNat) 0 ≠
        blockInt v.src (bszOf v.p.toNat) (j / bszOf v.p.toNat)

/-- R157 and R160, last sentence: PASS is only ever returned when the reconstructed buffer is the source, byte for
byte. `rst` may be high: the harness is not told of it (log entries 7 and 18). -/
def Obligations.PassOnlyOnEqualBuffers : Prop :=
  ∀ (s t : State), step s = .next t → t.harness.verdicts.length = s.harness.verdicts.length + 1 →
    t.harness.verdicts.getLast? = some .pass →
    ∃ (d : DecodeJob s.cfg) (src : List Byte), d.caller = some src ∧
      ((s.harness.ctl = .decodeCfgIssued d ∧ src = []) ∨
       (s.harness.ctl = .decodeUnpackIssued d ∧ memWrite d.out d.width s.bcu.resBytes = src))

/-- R156 and R157 steps 4 and 5: with a record for every block the harness stores a Bundle of exactly the public fields,
reads the same Bundle back, and goes on to decrypt it. That this takes three cycles is the model's choice (log entry 5;
R200 gives no count), as is that it goes on when `rst` is high, which resets the BCU and not the harness (log entries 7
and 18). -/
def Obligations.BundleIsStoredAndReadBack : Prop :=
  ∀ (s : State) (v : VerifyArgs s.cfg) (key : Keys) (ints : List (BitVec s.cfg.pw)) (records : List Record),
    s.harness.ctl = .encrypt v key ints records → ints.length ≤ records.length → s.harness.waits = [] →
    ∃ (u : Bcu s.cfg) (r : List Bool) (h : Harness s.cfg), runFor 3 s = .next ⟨s.cfg, u, r, h⟩ ∧
      h.ctl = .decrypt v key ⟨v.p, v.a, v.p0, key.q, v.src.length, records⟩ [] ∧
      h.storage = some ⟨v.p, v.a, v.p0, key.q, v.src.length, records⟩ ∧ h.oracle = s.harness.oracle

/-- R155: a procedure that reads an error returns FAIL at once, and with nothing else to do the host presents only idle
cycles and calls the cipher no more. `rst` may be high in any of these cycles: that the harness goes on then is the
model's choice (log entries 7 and 18). -/
def Obligations.FailEndsTheRun : Prop :=
  ∀ (s : State) (e : EncodeJob s.cfg) (d : DecodeJob s.cfg) (n : Nat),
    s.harness.ctl = .encodePackIssued e ∨ s.harness.ctl = .decodeUnpackIssued d →
    s.bcu.err ≠ 0 → s.harness.todo = [] →
    ∃ (u : Bcu s.cfg) (r : List Bool) (h : Harness s.cfg), runFor (n + 1) s = .next ⟨s.cfg, u, r, h⟩ ∧
      h.verdicts = s.harness.verdicts ++ [.fail s.bcu.err s.bcu.errIdx.toNat] ∧
      h.oracle = s.harness.oracle ∧ ∀ i ∈ presented (n + 1) s, i = .nop

/-- R153: every integer the harness gives to encrypt is below the modulus it gives with it. The premise, which every step
keeps, says what a running ENCODE has read. It is kept with `rst` high too, where the harness goes on (log entries 7
and 18). -/
def Obligations.EncryptIsCalledInRange : Prop :=
  (∀ c, (State.resetOf c).EncryptsInRange) ∧
  (∀ s t : State, s.bcu.Inv → s.EncryptsInRange → step s = .next t → t.EncryptsInRange)
end

