-- ==== Sys2Proof/Laws/Decode.lean ====
section
/-! SUPPORT. The request word and its five fields, and the flat bus and its lanes, are each other's inverse. -/

namespace Sys2Proof

@[simp] theorem lanesOf_length (c : Params) (bus : BitVec (8 * c.bmax)) : (lanesOf c bus).length = c.bmax := by
  simp [lanesOf]

/-- A request word carries its five fields. -/
@[simp] theorem Request.ofWord_toWord {c : Params} (r : Request c) : Request.ofWord r.toWord = r := by
  cases r with
  | mk op argInt argBytes argLen argIdx =>
    simp only [Request.ofWord, Request.toWord, Request.mk.injEq]
    refine ⟨?_, ?_, ?_, ?_, ?_⟩ <;> ext i hi <;>
      simp only [← BitVec.getLsbD_eq_getElem, BitVec.getLsbD_extractLsb', BitVec.getLsbD_append, hi,
        decide_true, Bool.true_and]
    · simp only [Nat.zero_add, hi, if_true]
    · simp [show ¬ (2 + i < 2) by omega, hi]
    · simp [show ¬ (c.pw + 2 + i < 2) by omega, show ¬ (c.pw + 2 + i - 2 < c.pw) by omega,
        show c.pw + 2 + i - 2 - c.pw = i by omega, hi]
    · simp [show ¬ (c.pw + 8 * c.bmax + 2 + i < 2) by omega,
        show ¬ (c.pw + 8 * c.bmax + 2 + i - 2 < c.pw) by omega,
        show c.pw + 8 * c.bmax + 2 + i - 2 - c.pw = 8 * c.bmax + i by omega, hi]
    · simp [show ¬ (c.pw + 8 * c.bmax + c.lw + 2 + i < 2) by omega,
        show ¬ (c.pw + 8 * c.bmax + c.lw + 2 + i - 2 < c.pw) by omega,
        show c.pw + 8 * c.bmax + c.lw + 2 + i - 2 - c.pw - 8 * c.bmax = c.lw + i by omega,
        show ¬ (c.pw + 8 * c.bmax + c.lw + 2 + i - 2 - c.pw < 8 * c.bmax) by omega, hi]

theorem leValue_lt (l : List Byte) : leValue l < 256 ^ l.length := by
  induction l with
  | nil => simp [leValue]
  | cons b bs ih => simp only [leValue, List.length_cons, pow_succ]; have := b.isLt; omega

/-- Byte `i` of the number the lanes read as is lane `i`. -/
theorem leValue_byte (l : List Byte) (i : Nat) : leValue l / 256 ^ i % 256 = (l.getD i 0).toNat := by
  induction l generalizing i with
  | nil => simp [leValue]
  | cons b bs ih =>
    have hb := b.isLt
    cases i with
    | zero => simp [leValue]; omega
    | succ i =>
      have : (b.toNat + 256 * leValue bs) / 256 = leValue bs := by omega
      simp [leValue, pow_succ', ← Nat.div_div_eq_div_mul, this, ih]

/-- Lane `i` of a bus is byte `i` of the number it reads as. -/
theorem lane_toNat {n : Nat} (bus : BitVec n) (i : Nat) : (lane bus i).toNat = bus.toNat / 256 ^ i % 256 := by
  simp [lane, BitVec.extractLsb'_toNat, Nat.shiftRight_eq_div_pow, pow_mul]

/-- The bus made of lanes carries them. -/
theorem lane_busOf (c : Params) (l : List Byte) {i : Nat} (hi : i < c.bmax) : lane (busOf c l) i = l.getD i 0 := by
  apply BitVec.eq_of_toNat_eq
  rw [lane_toNat, busOf, BitVec.toNat_ofNat, ← leValue_byte]
  obtain ⟨d, hd⟩ : ∃ d, c.bmax = i + 1 + d := ⟨c.bmax - (i + 1), by omega⟩
  have h256 : 2 ^ (8 * c.bmax) = 256 ^ i * (256 * 256 ^ d) := by
    rw [hd, pow_mul, pow_add, pow_add]; norm_num [mul_assoc]
  rw [h256, Nat.mod_mul_right_div_self, Nat.mod_mul_right_mod]

/-- A list of BMAX lanes is what its bus carries. -/
theorem lanesOf_busOf (c : Params) (l : List Byte) (h : l.length = c.bmax) : lanesOf c (busOf c l) = l := by
  apply List.ext_getElem
  · simp [h]
  · intro i h1 h2
    have hi : i < c.bmax := by simpa using h1
    simp [lanesOf, lane_busOf c l hi, h2]

theorem leValue_append_singleton (l : List Byte) (b : Byte) :
    leValue (l ++ [b]) = leValue l + 256 ^ l.length * b.toNat := by
  induction l with
  | nil => simp [leValue]
  | cons x xs ih => simp only [List.cons_append, leValue, ih, List.length_cons, pow_succ]; ring

/-- The lanes of a bus, read as a number, are the bus. -/
theorem leValue_lanes {width : Nat} (bus : BitVec width) (n : Nat) :
    leValue ((List.range n).map (lane bus)) = bus.toNat % 256 ^ n := by
  induction n with
  | zero => simp [leValue, Nat.mod_one]
  | succ n ih =>
    rw [List.range_succ, List.map_append, List.map_singleton, leValue_append_singleton, ih, lane_toNat]
    rw [List.length_map, List.length_range, pow_succ, Nat.mod_mul]

/-- The bus made of the lanes of a bus is that bus. -/
@[simp] theorem busOf_lanesOf (c : Params) (bus : BitVec (8 * c.bmax)) : busOf c (lanesOf c bus) = bus := by
  apply BitVec.eq_of_toNat_eq
  have : (256 : Nat) ^ c.bmax = 2 ^ (8 * c.bmax) := by rw [pow_mul]; norm_num
  rw [busOf, lanesOf, BitVec.toNat_ofNat, leValue_lanes, this, Nat.mod_mod, Nat.mod_eq_of_lt bus.isLt]

/-- The decoder reads from an encoded operation the operation its five fields stand for. -/
theorem decode_encode_request (c : Params) (i : Instr) : decode c (encode c i) = (request c i).instr :=
  congrArg Request.instr (Request.ofWord_toWord (request c i))

@[simp] theorem decode_encode_nop (c : Params) : decode c (encode c .nop) = .nop := decode_encode_request c .nop

end Sys2Proof
end

