-- ==== Sys2Proof/Laws/State.lean ====
section
/-! SUPPORT. The small lemmas of the state record: one for each field and update, true by `rfl`. -/

namespace Sys2Proof.Machine

variable {c : Params} (u : Bcu c)

/-! ## Replacing the registers -/

theorem State.withBcu_cfg (s : State) (u : Bcu s.cfg) : (s.withBcu u).cfg = s.cfg := rfl
theorem State.withBcu_bcu (s : State) (u : Bcu s.cfg) : (s.withBcu u).bcu = u := rfl
theorem State.withBcu_rst (s : State) (u : Bcu s.cfg) : (s.withBcu u).rst = s.rst := rfl
theorem State.withBcu_harness (s : State) (u : Bcu s.cfg) : (s.withBcu u).harness = s.harness := rfl
theorem State.withBcu_withBcu (s : State) (u v : Bcu s.cfg) : (s.withBcu u).withBcu v = s.withBcu v := rfl
theorem State.withBcu_self (s : State) : s.withBcu s.bcu = s := rfl

theorem State.withBcu_rstNow (s : State) (u : Bcu s.cfg) : (s.withBcu u).rstNow = s.rstNow := rfl

/-! ## Taking the inputs of a cycle -/

@[simp] theorem State.sample_cfg (s : State) : s.sample.2.cfg = s.cfg := rfl
@[simp] theorem State.sample_bcu (s : State) : s.sample.2.bcu = s.bcu := rfl
@[simp] theorem State.sample_rst (s : State) : s.sample.2.rst = s.rst.tail := rfl
@[simp] theorem State.sample_word (s : State) : s.sample.1 = (s.harness.cycle s.bcu).1 := rfl
@[simp] theorem State.sample_harness (s : State) : s.sample.2.harness = (s.harness.cycle s.bcu).2 := rfl

/-! ## Raising an error (R172) -/

@[simp] theorem Bcu.raise_p (e : ErrCode) (k : BitVec c.iw) : (u.raise e k).p = u.p := rfl
@[simp] theorem Bcu.raise_bitlen (e : ErrCode) (k : BitVec c.iw) : (u.raise e k).bitlen = u.bitlen := rfl
@[simp] theorem Bcu.raise_bsz (e : ErrCode) (k : BitVec c.iw) : (u.raise e k).bsz = u.bsz := rfl
@[simp] theorem Bcu.raise_cfgd (e : ErrCode) (k : BitVec c.iw) : (u.raise e k).cfgd = u.cfgd := rfl
@[simp] theorem Bcu.raise_err (e : ErrCode) (k : BitVec c.iw) : (u.raise e k).err = e.code := rfl
@[simp] theorem Bcu.raise_errIdx (e : ErrCode) (k : BitVec c.iw) : (u.raise e k).errIdx = k := rfl
@[simp] theorem Bcu.raise_done (e : ErrCode) (k : BitVec c.iw) : (u.raise e k).done = false := rfl
@[simp] theorem Bcu.raise_resInt (e : ErrCode) (k : BitVec c.iw) : (u.raise e k).resInt = u.resInt := rfl
@[simp] theorem Bcu.raise_resBytes (e : ErrCode) (k : BitVec c.iw) : (u.raise e k).resBytes = u.resBytes := rfl
@[simp] theorem Bcu.raise_resLen (e : ErrCode) (k : BitVec c.iw) : (u.raise e k).resLen = u.resLen := rfl

/-! ## Refusing (R174) and NOP (R86) -/

@[simp] theorem Bcu.refuse_p : u.refuse.p = u.p := rfl
@[simp] theorem Bcu.refuse_bitlen : u.refuse.bitlen = u.bitlen := rfl
@[simp] theorem Bcu.refuse_bsz : u.refuse.bsz = u.bsz := rfl
@[simp] theorem Bcu.refuse_cfgd : u.refuse.cfgd = u.cfgd := rfl
@[simp] theorem Bcu.refuse_err : u.refuse.err = u.err := rfl
@[simp] theorem Bcu.refuse_errIdx : u.refuse.errIdx = u.errIdx := rfl
@[simp] theorem Bcu.refuse_done : u.refuse.done = false := rfl
@[simp] theorem Bcu.refuse_resInt : u.refuse.resInt = u.resInt := rfl
@[simp] theorem Bcu.refuse_resBytes : u.refuse.resBytes = u.resBytes := rfl
@[simp] theorem Bcu.refuse_resLen : u.refuse.resLen = u.resLen := rfl

@[simp] theorem Bcu.nop_p : u.nop.p = u.p := rfl
@[simp] theorem Bcu.nop_bitlen : u.nop.bitlen = u.bitlen := rfl
@[simp] theorem Bcu.nop_bsz : u.nop.bsz = u.bsz := rfl
@[simp] theorem Bcu.nop_cfgd : u.nop.cfgd = u.cfgd := rfl
@[simp] theorem Bcu.nop_err : u.nop.err = u.err := rfl
@[simp] theorem Bcu.nop_errIdx : u.nop.errIdx = u.errIdx := rfl
@[simp] theorem Bcu.nop_done : u.nop.done = false := rfl
@[simp] theorem Bcu.nop_resInt : u.nop.resInt = u.resInt := rfl
@[simp] theorem Bcu.nop_resBytes : u.nop.resBytes = u.resBytes := rfl
@[simp] theorem Bcu.nop_resLen : u.nop.resLen = u.resLen := rfl

/-! ## CFG (R85) -/

variable (p : BitVec c.pw)

@[simp] theorem Bcu.configure_p : (Bcu.configure c p).p = p := rfl
@[simp] theorem Bcu.configure_bitlen : (Bcu.configure c p).bitlen = (bsc c p).bitlenO := rfl
@[simp] theorem Bcu.configure_bsz : (Bcu.configure c p).bsz = (bsc c p).bszO := rfl
@[simp] theorem Bcu.configure_cfgd : (Bcu.configure c p).cfgd = !(bsc c p).cfgErr := rfl
@[simp] theorem Bcu.configure_err : (Bcu.configure c p).err =
    if (bsc c p).cfgErr then ErrCode.config.code else ErrCode.none.code := rfl
@[simp] theorem Bcu.configure_errIdx : (Bcu.configure c p).errIdx = 0 := rfl
@[simp] theorem Bcu.configure_done : (Bcu.configure c p).done = !(bsc c p).cfgErr := rfl
@[simp] theorem Bcu.configure_resInt : (Bcu.configure c p).resInt = 0 := rfl
@[simp] theorem Bcu.configure_resBytes : (Bcu.configure c p).resBytes = 0 := rfl
@[simp] theorem Bcu.configure_resLen : (Bcu.configure c p).resLen = 0 := rfl

/-! ## Returning a verdict -/

variable (h : Harness c) (v : Verdict c)

@[simp] theorem Harness.returns_ctl : (h.returns v).ctl = .idle := rfl
@[simp] theorem Harness.returns_verdicts : (h.returns v).verdicts = h.verdicts ++ [v] := rfl
@[simp] theorem Harness.returns_todo : (h.returns v).todo = h.todo := rfl
@[simp] theorem Harness.returns_waits : (h.returns v).waits = h.waits := rfl
@[simp] theorem Harness.returns_oracle : (h.returns v).oracle = h.oracle := rfl
@[simp] theorem Harness.returns_storage : (h.returns v).storage = h.storage := rfl

end Sys2Proof.Machine
end

