-- ==== Sys2Proof/Laws/Ops.lean ====
section
/-! SUPPORT. For each shared operation over the registers, one lemma that says everything it can do. -/

namespace Sys2Proof.Machine

variable {c : Params} (u : Bcu c)

@[simp] theorem countErr_eq_true (n bsz : Nat) : countErr n bsz = true ↔ n < 1 ∨ bsz < n := by simp [countErr]
@[simp] theorem countErr_eq_false (n bsz : Nat) : countErr n bsz = false ↔ 1 ≤ n ∧ n ≤ bsz := by
  simp [countErr]; omega
@[simp] theorem cfgErr_eq_true (b : Nat) : cfgErr b = true ↔ b = 0 := by simp [cfgErr]
@[simp] theorem cfgErr_eq_false (b : Nat) : cfgErr b = false ↔ 1 ≤ b := by simp [cfgErr]; omega
@[simp] theorem rangeErr_eq_true (v p : Nat) : rangeErr v p = true ↔ p ≤ v := by simp [rangeErr]
@[simp] theorem rangeErr_eq_false (v p : Nat) : rangeErr v p = false ↔ v < p := by simp [rangeErr]
@[simp] theorem lenErr_eq_true (m w : Nat) : lenErr m w = true ↔ 2 ^ (8 * w) ≤ m := by simp [lenErr]
@[simp] theorem lenErr_eq_false (m w : Nat) : lenErr m w = false ↔ m < 2 ^ (8 * w) := by simp [lenErr]

/-- The code of an error is 0 only for NONE (R170). -/
@[simp] theorem ErrCode.code_eq_none (e : ErrCode) : e.code = ErrCode.none.code ↔ e = .none := by
  cases e <;> decide

/-- The state of the registers in which a block operation of `n` bytes reaches its leaf function (R173). -/
abbrev Bcu.Admits (u : Bcu c) (n : BitVec c.lw) : Prop :=
  u.err = ErrCode.none.code ∧ u.cfgd = true ∧ 1 ≤ n.toNat ∧ n.toNat ≤ u.bsz.toNat

/-- The checks before a block operation end in exactly one of four ways, in the order of R173. -/
theorem Bcu.block_cases (k : BitVec c.iw) (n : BitVec c.lw) (body : Bcu c) :
    (u.err ≠ ErrCode.none.code ∧ u.block k n body = u.refuse) ∨
    (u.err = ErrCode.none.code ∧ u.cfgd = false ∧ u.block k n body = u.raise .unconfigured k) ∨
    (u.err = ErrCode.none.code ∧ u.cfgd = true ∧ (n.toNat < 1 ∨ u.bsz.toNat < n.toNat) ∧
      u.block k n body = u.raise .operand k) ∨
    (u.Admits n ∧ u.block k n body = body) := by
  unfold Bcu.block Bcu.Admits
  by_cases h1 : u.err = ErrCode.none.code
  · cases h2 : u.cfgd
    · simp [h1]
    · cases h3 : countErr n.toNat u.bsz.toNat
      · simp_all
      · simp_all
  · simp [h1]

theorem Bcu.block_of_err {u : Bcu c} (h : u.err ≠ ErrCode.none.code) (k : BitVec c.iw) (n : BitVec c.lw)
    (body : Bcu c) : u.block k n body = u.refuse := by
  rcases u.block_cases k n body with ⟨-, h1⟩ | ⟨h1, -⟩ | ⟨h1, -⟩ | ⟨h1, -⟩
  · exact h1
  · exact absurd h1 h
  · exact absurd h1 h
  · exact absurd h1.1 h

theorem Bcu.block_of_unconfigured {u : Bcu c} (h : u.err = ErrCode.none.code) (hc : u.cfgd = false)
    (k : BitVec c.iw) (n : BitVec c.lw) (body : Bcu c) : u.block k n body = u.raise .unconfigured k := by
  rcases u.block_cases k n body with ⟨h1, -⟩ | ⟨-, -, h1⟩ | ⟨-, h1, -⟩ | ⟨⟨-, h1, -⟩, -⟩
  · exact absurd h h1
  · exact h1
  · simp [hc] at h1
  · simp [hc] at h1

theorem Bcu.block_of_count {u : Bcu c} {n : BitVec c.lw} (h : u.err = ErrCode.none.code) (hc : u.cfgd = true)
    (hn : n.toNat < 1 ∨ u.bsz.toNat < n.toNat) (k : BitVec c.iw) (body : Bcu c) :
    u.block k n body = u.raise .operand k := by
  rcases u.block_cases k n body with ⟨h1, -⟩ | ⟨-, h1, -⟩ | ⟨-, -, -, h1⟩ | ⟨h1, -⟩
  · exact absurd h h1
  · simp [hc] at h1
  · exact h1
  · have := h1.2.2; omega

theorem Bcu.block_of_admits {u : Bcu c} {n : BitVec c.lw} (h : u.Admits n) (k : BitVec c.iw) (body : Bcu c) :
    u.block k n body = body := by
  rcases u.block_cases k n body with ⟨h1, -⟩ | ⟨-, h1, -⟩ | ⟨-, -, h1, -⟩ | ⟨-, h1⟩
  · exact absurd h.1 h1
  · simp [h.2.1] at h1
  · have := h.2.2; omega
  · exact h1

/-- PACK refuses, raises one error, or writes RES_INT and DONE (R105). -/
theorem Bcu.pack_cases (k : BitVec c.iw) (n : BitVec c.lw) (d : BitVec (8 * c.bmax)) :
    (u.err ≠ ErrCode.none.code ∧ u.pack k n d = u.refuse) ∨
    (u.err = ErrCode.none.code ∧ u.cfgd = false ∧ u.pack k n d = u.raise .unconfigured k) ∨
    (u.err = ErrCode.none.code ∧ u.cfgd = true ∧ (n.toNat < 1 ∨ u.bsz.toNat < n.toNat) ∧
      u.pack k n d = u.raise .operand k) ∨
    (u.Admits n ∧ (packer c d n.toNat u.p).rangeErr = true ∧ u.pack k n d = u.raise .encRange k) ∨
    (u.Admits n ∧ (packer c d n.toNat u.p).rangeErr = false ∧
      u.pack k n d = { u with resInt := (packer c d n.toNat u.p).v, done := true }) := by
  unfold Bcu.pack
  rcases u.block_cases k n (if (packer c d n.toNat u.p).rangeErr then u.raise .encRange k
    else { u with resInt := (packer c d n.toNat u.p).v, done := true }) with h | h | h | ⟨ha, h⟩
  · exact .inl h
  · exact .inr (.inl h)
  · exact .inr (.inr (.inl h))
  · cases hr : (packer c d n.toNat u.p).rangeErr
    · exact .inr (.inr (.inr (.inr ⟨ha, rfl, by simpa [hr] using h⟩)))
    · exact .inr (.inr (.inr (.inl ⟨ha, rfl, by simpa [hr] using h⟩)))

/-- UNPACK refuses, raises one error, or writes RES_BYTES, RES_LEN and DONE (R125). -/
theorem Bcu.unpack_cases (k : BitVec c.iw) (w : BitVec c.lw) (m : BitVec c.pw) :
    (u.err ≠ ErrCode.none.code ∧ u.unpack k w m = u.refuse) ∨
    (u.err = ErrCode.none.code ∧ u.cfgd = false ∧ u.unpack k w m = u.raise .unconfigured k) ∨
    (u.err = ErrCode.none.code ∧ u.cfgd = true ∧ (w.toNat < 1 ∨ u.bsz.toNat < w.toNat) ∧
      u.unpack k w m = u.raise .operand k) ∨
    (u.Admits w ∧ (unpacker c m w.toNat u.p).rangeErr = true ∧ u.unpack k w m = u.raise .decRange k) ∨
    (u.Admits w ∧ (unpacker c m w.toNat u.p).rangeErr = false ∧ (unpacker c m w.toNat u.p).lenErr = true ∧
      u.unpack k w m = u.raise .lenOvf k) ∨
    (u.Admits w ∧ (unpacker c m w.toNat u.p).rangeErr = false ∧ (unpacker c m w.toNat u.p).lenErr = false ∧
      u.unpack k w m = { u with resBytes := (unpacker c m w.toNat u.p).q, resLen := w, done := true }) := by
  unfold Bcu.unpack
  rcases u.block_cases k w (if (unpacker c m w.toNat u.p).rangeErr then u.raise .decRange k
    else if (unpacker c m w.toNat u.p).lenErr then u.raise .lenOvf k
    else { u with resBytes := (unpacker c m w.toNat u.p).q, resLen := w, done := true }) with h | h | h | ⟨ha, h⟩
  · exact .inl h
  · exact .inr (.inl h)
  · exact .inr (.inr (.inl h))
  · cases hr : (unpacker c m w.toNat u.p).rangeErr
    · cases hl : (unpacker c m w.toNat u.p).lenErr
      · exact .inr (.inr (.inr (.inr (.inr ⟨ha, rfl, rfl, by simpa [hr, hl] using h⟩))))
      · exact .inr (.inr (.inr (.inr (.inl ⟨ha, rfl, rfl, by simpa [hr, hl] using h⟩))))
    · exact .inr (.inr (.inr (.inl ⟨ha, rfl, by simpa [hr] using h⟩)))

/-- Inside its domain PACKER gives the big-endian value and compares it with the modulus (R100). -/
theorem packer_of_le {n : Nat} (d : BitVec (8 * c.bmax)) (p : BitVec c.pw) (h : n ≤ c.bmax) :
    packer c d n p = { v := BitVec.ofNat _ (be (lane d) n), rangeErr := rangeErr (be (lane d) n) p.toNat } := by
  simp [packer, h]

/-- Inside its domain UNPACKER compares the integer with the modulus and the width (R120). -/
theorem unpacker_errs {w : Nat} (m p : BitVec c.pw) (h1 : 1 ≤ w) (h : w ≤ c.bmax) :
    (unpacker c m w p).rangeErr = rangeErr m.toNat p.toNat ∧ (unpacker c m w p).lenErr = lenErr m.toNat w := by
  simp [unpacker, h1, h]

/-- Inside its domain and without a length error the lanes of UNPACKER are the big-endian image (R120, R121). -/
theorem unpacker_q {w : Nat} (m p : BitVec c.pw) (h1 : 1 ≤ w) (h : w ≤ c.bmax) (hl : m.toNat < 2 ^ (8 * w)) :
    (unpacker c m w p).q = unpackerLanes c m.toNat w := by
  have : lenErr m.toNat w = false := (lenErr_eq_false _ _).2 hl
  simp [unpacker, h1, h, this]

end Sys2Proof.Machine
end

