-- ==== Sys2Proof/Laws/Step.lean ====
section
/-! SUPPORT. What an operation and a clock edge can do. -/

namespace Sys2Proof.Machine

@[simp] theorem exec_nop (s : State) : exec .nop s = .next (s.withBcu s.bcu.nop) := rfl

@[simp] theorem exec_cfg (p : Nat) (s : State) :
    exec (.cfg p) s = .next (s.withBcu (Bcu.configure s.cfg (intOperand s.cfg p))) := rfl

@[simp] theorem exec_pack (k n : Nat) (lanes : List Byte) (s : State) :
    exec (.pack k n lanes) s =
      .next (s.withBcu (s.bcu.pack (idxOperand s.cfg k) (lenOperand s.cfg n) (bytesOperand s.cfg lanes))) := rfl

@[simp] theorem exec_unpack (k w m : Nat) (s : State) :
    exec (.unpack k w m) s =
      .next (s.withBcu (s.bcu.unpack (idxOperand s.cfg k) (lenOperand s.cfg w) (intOperand s.cfg m))) := rfl

/-- Every operation answers a next state that differs in the registers alone. -/
theorem exec_cases (i : Instr) (s : State) : ∃ u : Bcu s.cfg, exec i s = .next (s.withBcu u) := by
  cases i <;> exact ⟨_, rfl⟩

/-- An edge with `rst` high. -/
theorem step_of_rst {s : State} (h : s.rstNow = true) :
    step s = .next { s.sample.2 with bcu := Bcu.reset s.cfg } := by
  simp [step, h]

/-- An edge with `rst` low. -/
theorem step_of_request {s : State} (h : s.rstNow = false) :
    step s = exec (decode s.cfg s.sample.1) s.sample.2 := by
  simp [step, h]

/-- A clock edge resets the registers, or runs the request presented; in both the harness has moved on. -/
theorem step_cases {s t : State} (h : step s = .next t) :
    (s.rstNow = true ∧ t = { s.sample.2 with bcu := Bcu.reset s.cfg }) ∨
    (s.rstNow = false ∧ exec (decode s.cfg s.sample.1) s.sample.2 = .next t) := by
  cases hr : s.rstNow with
  | false => exact .inr ⟨rfl, by rw [← step_of_request hr]; exact h⟩
  | true =>
    rw [step_of_rst hr] at h
    exact .inl ⟨rfl, (Host.Outcome.next.inj h).symm⟩

/-- The next state of an edge is the sampled one with other registers. -/
theorem step_frame {s t : State} (h : step s = .next t) : ∃ u : Bcu s.cfg, t = s.sample.2.withBcu u := by
  rcases step_cases h with ⟨-, rfl⟩ | ⟨-, h⟩
  · exact ⟨_, rfl⟩
  · obtain ⟨u, hu⟩ := exec_cases (decode s.cfg s.sample.1) s.sample.2
    exact ⟨u, Host.Outcome.next.inj (h.symm.trans hu)⟩

end Sys2Proof.Machine
end

