-- ==== Sys2Proof/Laws/Harness.lean ====
section
/-! SUPPORT. What the harness can do in a cycle. -/

namespace Sys2Proof.Machine

variable {c : Params} (h : Harness c)

/-- ENCODE's verdict goes on to VERIFY's encryption, or is returned (R157). -/
theorem Harness.encodeDone_cases (e : EncodeJob c) (v : Verdict c) :
    (∃ ints args key, v = .okInts ints ∧ e.caller = some (args, key) ∧
      h.encodeDone e v = { h with ctl := .encrypt args key ints [] }) ∨
    ((e.caller = none ∨ ∀ ints, v ≠ .okInts ints) ∧ h.encodeDone e v = h.returns v) := by
  unfold Harness.encodeDone
  cases v <;> cases hc : e.caller <;> simp

/-- DECODE's verdict goes on to VERIFY's comparison, or is returned (R157). -/
theorem Harness.decodeDone_cases (d : DecodeJob c) (v : Verdict c) :
    (∃ out src, v = .okBytes out ∧ d.caller = some src ∧ h.decodeDone d v = h.returns (compareBuffers out src)) ∨
    ((d.caller = none ∨ ∀ out, v ≠ .okBytes out) ∧ h.decodeDone d v = h.returns v) := by
  unfold Harness.decodeDone
  cases v <;> cases hc : d.caller <;> simp

/-- What the port carries fits it. -/
theorem portInt_lt (c : Params) (m : Nat) : portInt c m < 2 ^ c.pw :=
  (min_le_right _ _).trans_lt (Nat.sub_one_lt (Nat.two_pow_pos c.pw).ne')

/-- An integer below a modulus is presented as itself (R150). -/
theorem portInt_of_lt {p : BitVec c.pw} {m : Nat} (hm : m < p.toNat) : portInt c m = m := by
  have := p.isLt; unfold portInt; omega

/-- An integer at or above a modulus is presented as one that is (R150, R160). -/
theorem le_portInt {p : BitVec c.pw} {m : Nat} (hm : p.toNat ≤ m) : p.toNat ≤ portInt c m := by
  have := p.isLt; unfold portInt; omega

/-- ENCODE's loop presents the next PACK or is done (R141). -/
theorem Harness.encodeLoop_cases (e : EncodeJob c) :
    (e.k < blockCount e.buf.length e.b ∧ h.encodeLoop e = { h with ctl := .encodePack e }) ∨
    (blockCount e.buf.length e.b ≤ e.k ∧ h.encodeLoop e = h.encodeDone e (.okInts e.ints)) := by
  unfold Harness.encodeLoop; split <;> simp_all

/-- DECODE's loop presents the next UNPACK or is done (R150). -/
theorem Harness.decodeLoop_cases (d : DecodeJob c) :
    (d.k < d.ints.length ∧ h.decodeLoop d = { h with ctl := .decodeUnpack d }) ∨
    (d.ints.length ≤ d.k ∧ h.decodeLoop d = h.decodeDone d (.okBytes d.out)) := by
  unfold Harness.decodeLoop; split <;> simp_all

/-- A cycle of a running procedure is a wait, or what the procedure does next (R140). -/
theorem Harness.proceed_cases :
    (∃ rest, h.waits = true :: rest ∧ h.proceed = (encode c .nop, { h with waits := rest })) ∨
    (h.waits.headD false = false ∧
      h.proceed = (encode c ({ h with waits := h.waits.tail } : Harness c).present.1,
        ({ h with waits := h.waits.tail } : Harness c).present.2)) := by
  unfold Harness.proceed
  rcases hw : h.waits with - | ⟨- | -, rest⟩
  · right; simp only [List.headD_nil, List.tail_nil, true_and]; rw [← hw]
  · right; simp
  · left; exact ⟨rest, rfl, rfl⟩

/-- Whether the procedure presented a request in the cycle before. -/
def Ctl.issued : Ctl c → Bool
  | .encodeCfgIssued _ | .encodePackIssued _ | .decodeCfgIssued _ | .decodeUnpackIssued _ => true
  | .idle | .encodeCfg _ | .encodePack _ | .decodeCfg _ | .decodeUnpack _ | .keygen _ | .encrypt _ _ _ _
  | .persist _ _ _ | .reload _ _ | .decrypt _ _ _ _ => false

theorem Harness.encodeDone_issued (e : EncodeJob c) (v : Verdict c) : (h.encodeDone e v).ctl.issued = false := by
  rcases h.encodeDone_cases e v with ⟨_, _, _, -, -, h⟩ | ⟨-, h⟩ <;> simp [h, Ctl.issued]

theorem Harness.decodeDone_issued (d : DecodeJob c) (v : Verdict c) : (h.decodeDone d v).ctl.issued = false := by
  rcases h.decodeDone_cases d v with ⟨_, _, -, -, h⟩ | ⟨-, h⟩ <;> simp [h, Ctl.issued]

theorem Harness.encodeLoop_issued (e : EncodeJob c) : (h.encodeLoop e).ctl.issued = false := by
  rcases h.encodeLoop_cases e with ⟨-, hl⟩ | ⟨-, hl⟩ <;> rw [hl]
  · rfl
  · exact h.encodeDone_issued _ _

theorem Harness.decodeLoop_issued (d : DecodeJob c) : (h.decodeLoop d).ctl.issued = false := by
  rcases h.decodeLoop_cases d with ⟨-, hl⟩ | ⟨-, hl⟩ <;> rw [hl]
  · rfl
  · exact h.decodeDone_issued _ _

/-- Once the outputs are read the harness waits for no request any more (R140). -/
theorem Harness.readOutputs_issued (u : Bcu c) : (h.readOutputs u).ctl.issued = false := by
  unfold Harness.readOutputs
  split
  · unfold Harness.encodeConfigured
    split_ifs <;> first | exact h.encodeDone_issued _ _ | exact h.encodeLoop_issued _
  · unfold Harness.encodePacked
    split_ifs <;> first | exact h.encodeDone_issued _ _ | exact h.encodeLoop_issued _
  · unfold Harness.decodeConfigured
    split_ifs <;> first | exact h.decodeDone_issued _ _ | exact h.decodeLoop_issued _
  · unfold Harness.decodeUnpacked
    split_ifs <;> first | exact h.decodeDone_issued _ _ | exact h.decodeLoop_issued _
  all_goals simp [*, Ctl.issued]

end Sys2Proof.Machine
end

