-- ==== Sys2Proof/Laws/PerInstr.lean ====
section
/-! SUPPORT. Facts about every operation as syntax, one lemma for each constructor. -/

namespace Sys2Proof.Laws

/-- The two low bits of an operation's request word are its `op` value (R61, R63). -/
def OpField.Statement (i : Instr) : Prop := ∀ c : Params, (encode c i).extractLsb' 0 2 = i.op

theorem opField_of_request (c : Params) (i : Instr) : (encode c i).extractLsb' 0 2 = (request c i).op := by
  have := congrArg Request.op (Request.ofWord_toWord (request c i))
  simpa [Request.ofWord, encode] using this

theorem OpField.nop : OpField.Statement .nop := fun c => opField_of_request c _

theorem OpField.cfg (p : Nat) : OpField.Statement (.cfg p) := fun c => opField_of_request c _

theorem OpField.pack (k n : Nat) (lanes : List Byte) : OpField.Statement (.pack k n lanes) :=
  fun c => opField_of_request c _

theorem OpField.unpack (k w m : Nat) : OpField.Statement (.unpack k w m) := fun c => opField_of_request c _

end Sys2Proof.Laws
end

