-- ==== Sys2Proof/Laws/Run.lean ====
section
/-! SUPPORT. Runs of several cycles, and what a running procedure does once its wait cycles are over. -/

namespace Sys2Proof.Machine

/-! ## Runs -/

theorem runFor_succ {n : Nat} {s t : State} (h : step s = .next t) : runFor (n + 1) s = runFor n t := by
  simp [runFor, h]

theorem runFor_one {s t : State} (h : step s = .next t) : runFor 1 s = .next t := by
  simp [runFor, h]

theorem runFor_add (m n : Nat) {s t : State} (h : runFor m s = .next t) : runFor (m + n) s = runFor n t := by
  induction m generalizing s with
  | zero => rw [Nat.zero_add, Host.Outcome.next.inj h]
  | succ m ih =>
    rw [Nat.succ_add]
    simp only [runFor] at h ⊢
    cases hs : step s with
    | next t' => simp only [hs] at h; exact ih h
    | fault r => simp [hs] at h
    | refused r => simp [hs] at h

theorem presented_succ {n : Nat} {s t : State} (h : step s = .next t) :
    presented (n + 1) s = decode s.cfg s.sample.1 :: presented n t := by
  simp [presented, h]

theorem presented_add (m n : Nat) {s t : State} (h : runFor m s = .next t) :
    presented (m + n) s = presented m s ++ presented n t := by
  induction m generalizing s with
  | zero => rw [Nat.zero_add, Host.Outcome.next.inj h]; rfl
  | succ m ih =>
    rw [Nat.succ_add]
    simp only [runFor] at h
    cases hs : step s with
    | next t' => simp only [hs] at h; simp [presented_succ hs, ih h]
    | fault r => simp [hs] at h
    | refused r => simp [hs] at h

/-! ## One cycle with `rst` low -/

theorem rstNow_of_low {c : Params} {u : Bcu c} {r : List Bool} {h : Harness c} (hr : ∀ level ∈ r, level = false) :
    (⟨c, u, r, h⟩ : State).rstNow = false := by
  cases r with
  | nil => rfl
  | cons level _ => exact hr level (by simp)

/-- With `rst` low an edge executes the word the harness presents in its cycle (R194). -/
theorem step_of_cycle {c : Params} {u : Bcu c} {r : List Bool} {h h' : Harness c} {w : BitVec c.rw}
    (hr : ∀ level ∈ r, level = false) (hc : h.cycle u = (w, h')) :
    step ⟨c, u, r, h⟩ = exec (decode c w) ⟨c, u, r.tail, h'⟩ := by
  rw [step_of_request (rstNow_of_low hr)]
  simp [State.sample, hc]

section

variable {c : Params} {h : Harness c}

/-- A procedure that waits for no outputs goes on. -/
theorem Harness.cycle_of_running (u : Bcu c) (hi : h.ctl.issued = false) (hn : h.ctl ≠ .idle) :
    h.cycle u = h.proceed := by
  have hread : h.readOutputs u = h := by
    unfold Harness.readOutputs
    cases hc : h.ctl <;> simp_all [Ctl.issued]
  unfold Harness.cycle
  rw [hread]
  cases hc : h.ctl <;> simp_all

/-- A procedure that reads outputs and is not at its end goes on in the same cycle. -/
theorem Harness.cycle_of_read {h' : Harness c} {u : Bcu c} (hr : h.readOutputs u = h') (hn : h'.ctl ≠ .idle) :
    h.cycle u = h'.proceed := by
  unfold Harness.cycle
  rw [hr]
  cases hc : h'.ctl <;> simp_all

/-- The host starts a procedure. -/
theorem Harness.cycle_of_call (u : Bcu c) {q : Call c} {rest : List (Action c)} (hi : h.ctl = .idle)
    (ht : h.todo = .call q :: rest) :
    h.cycle u = ({ h with todo := rest, ctl := .start q } : Harness c).proceed := by
  simp [Harness.cycle, Harness.readOutputs, hi, ht]

/-- A harness with nothing to do presents NOP. -/
theorem Harness.cycle_of_idle (u : Bcu c) (hi : h.ctl = .idle) (ht : h.todo = []) : h.cycle u = (encode c .nop, h) := by
  simp [Harness.cycle, Harness.readOutputs, hi, ht]

/-! ## A verdict is recorded only where outputs are read -/

@[simp] theorem Harness.present_verdicts (h : Harness c) : h.present.2.verdicts = h.verdicts := by
  unfold Harness.present
  split <;> try rfl
  · unfold Harness.callKeygen; split <;> rfl
  · unfold Harness.callEncrypt
    split
    · rfl
    · split <;> rfl
  · unfold Harness.reloadBundle; split <;> rfl
  · unfold Harness.callDecrypt
    split
    · rfl
    · split <;> rfl

@[simp] theorem Harness.proceed_verdicts (h : Harness c) : h.proceed.2.verdicts = h.verdicts := by
  rcases h.proceed_cases with ⟨_, _, hp⟩ | ⟨_, hp⟩ <;> rw [hp]
  rw [Harness.present_verdicts]

@[simp] theorem Harness.cycle_verdicts (h : Harness c) (u : Bcu c) :
    (h.cycle u).2.verdicts = (h.readOutputs u).verdicts := by
  unfold Harness.cycle
  dsimp only
  split <;> simp

/-- A running procedure, after its wait cycles, presents its operation: the registers before that operation are as they
were, but for DONE, which the NOPs cleared (R86, R140). -/
theorem runFor_present (ws : List Bool) : ∀ (u : Bcu c) (r : List Bool) (h H : Harness c),
    h.cycle u = H.proceed → H.ctl.issued = false → H.ctl ≠ .idle → H.waits = ws → (∀ level ∈ r, level = false) →
    ∃ n u0 r' ws', (∀ level ∈ r', level = false) ∧ (u0 = u ∨ u0 = u.nop) ∧
      runFor (n + 1) ⟨c, u, r, h⟩ =
        exec (decode c (encode c ({ H with waits := ws' } : Harness c).present.1))
          ⟨c, u0, r', ({ H with waits := ws' } : Harness c).present.2⟩ ∧
      presented (n + 1) ⟨c, u, r, h⟩ =
        List.replicate n .nop ++ [decode c (encode c ({ H with waits := ws' } : Harness c).present.1)] := by
  have last : ∀ (ws : List Bool) (u : Bcu c) (r : List Bool) (h H : Harness c), h.cycle u = H.proceed →
      H.waits.headD false = false → H.waits.tail = ws → (∀ level ∈ r, level = false) →
      runFor 1 ⟨c, u, r, h⟩ =
        exec (decode c (encode c ({ H with waits := ws } : Harness c).present.1))
          ⟨c, u, r.tail, ({ H with waits := ws } : Harness c).present.2⟩ ∧
      presented 1 ⟨c, u, r, h⟩ = [decode c (encode c ({ H with waits := ws } : Harness c).present.1)] := by
    intro ws u r h H hc hw ht hr
    have hp : H.proceed = (encode c ({ H with waits := ws } : Harness c).present.1,
        ({ H with waits := ws } : Harness c).present.2) := by
      rcases H.proceed_cases with ⟨rest, hwt, -⟩ | ⟨-, hp⟩
      · simp [hwt] at hw
      · rw [hp, ht]
    have hs := step_of_cycle (r := r) hr (hc.trans hp)
    obtain ⟨v, hv⟩ := exec_cases (decode c (encode c ({ H with waits := ws } : Harness c).present.1))
      ⟨c, u, r.tail, ({ H with waits := ws } : Harness c).present.2⟩
    rw [hv] at hs ⊢
    refine ⟨runFor_one hs, ?_⟩
    rw [presented_succ hs]
    simp [State.sample, hc, hp, presented]
  induction ws with
  | nil =>
    intro u r h H hc _ _ hw hr
    obtain ⟨h1, h2⟩ := last [] u r h H hc (by simp [hw]) (by simp [hw]) hr
    exact ⟨0, u, r.tail, [], fun l hl => hr l (List.mem_of_mem_tail hl), .inl rfl, h1, by simpa using h2⟩
  | cons b ws ih =>
    intro u r h H hc hi hn hw hr
    have hr' : ∀ level ∈ r.tail, level = false := fun l hl => hr l (List.mem_of_mem_tail hl)
    cases b with
    | false =>
      obtain ⟨h1, h2⟩ := last ws u r h H hc (by simp [hw]) (by simp [hw]) hr
      exact ⟨0, u, r.tail, ws, hr', .inl rfl, h1, by simpa using h2⟩
    | true =>
      have hp : H.proceed = (encode c .nop, { H with waits := ws }) := by simp [Harness.proceed, hw]
      have hs := step_of_cycle hr (hc.trans hp)
      rw [decode_encode_nop, exec_nop] at hs
      obtain ⟨n, u0, r', ws', q1, q2, q3, q4⟩ := ih u.nop r.tail { H with waits := ws } { H with waits := ws }
        (Harness.cycle_of_running _ hi hn) hi hn rfl hr'
      refine ⟨n + 1, u0, r', ws', q1, by rcases q2 with rfl | rfl <;> exact .inr rfl, ?_, ?_⟩
      · rw [runFor_succ hs]; exact q3
      · rw [presented_succ hs]
        have hd : decode c (h.cycle u).1 = .nop := by rw [hc, hp, decode_encode_nop]
        rw [List.replicate_succ, List.cons_append]
        exact List.cons_eq_cons.mpr ⟨hd, q4⟩

end

end Sys2Proof.Machine
end

