-- ==== Sys2Proof/Tests/Slice0.lean ====
section
/-! SUPPORT. The package's own tests. Expected values are the spec's: 30_encoding.md R70 for request words,
95_test_vectors.md for effects. Theorems named `witness_…` show that the hypotheses of a statement can be met. -/

namespace Sys2Proof.Tests

open Sys2Proof Sys2Proof.Machine

/-! ## Helpers -/

/-- The reference configuration (R10). -/
abbrev ref : Params := Config.reference

/-- The registers after `CFG p` (R85, tested below). -/
def run (p : Nat) : Bcu ref := Bcu.configure ref (BitVec.ofNat _ p)

/-- A machine with these registers and nothing else to do. -/
def machine {c : Params} (u : Bcu c) : State := ⟨c, u, [], Harness.rest c⟩

/-- A machine whose host is about to do these actions. -/
def hosting {c : Params} (u : Bcu c) (todo : List (Machine.Action c)) : State :=
  ⟨c, u, [], { Harness.rest c with todo := todo }⟩

/-- A machine whose harness stands at `k`, with this oracle. -/
def harnessAt {c : Params} (u : Bcu c) (k : Ctl c) (o : Oracle c) : State :=
  ⟨c, u, [], { Harness.rest c with ctl := k, oracle := o }⟩

/-- The state a step answers; the reset state where it answers none. -/
def after : Host.Outcome State Fault Refusal → State
  | .next t => t
  | .fault _ => State.reset
  | .refused _ => State.reset

/-- ERR, ERR_IDX and DONE of an outcome. -/
def status : Host.Outcome State Fault Refusal → Option (Nat × Nat × Bool)
  | .next t => some (t.bcu.err.toNat, t.bcu.errIdx.toNat, t.bcu.done)
  | .fault _ => none
  | .refused _ => none

/-- RES_INT, RES_BYTES (lane 0 least significant) and RES_LEN of an outcome. -/
def results : Host.Outcome State Fault Refusal → Option (Nat × Nat × Nat)
  | .next t => some (t.bcu.resInt.toNat, t.bcu.resBytes.toNat, t.bcu.resLen.toNat)
  | .fault _ => none
  | .refused _ => none

/-- BITLEN, BSZ and CFGD of an outcome. -/
def sizes : Host.Outcome State Fault Refusal → Option (Nat × Nat × Bool)
  | .next t => some (t.bcu.bitlen.toNat, t.bcu.bsz.toNat, t.bcu.cfgd)
  | .fault _ => none
  | .refused _ => none

/-! ## WellFormed refuses each ill-formed operation (R60) -/

theorem test_wf_cfg_modulus_too_wide : WellFormed ref (.cfg (2 ^ 32)) = false := by decide
theorem test_wf_pack_index_too_wide : WellFormed ref (.pack (2 ^ 16) 1 [0, 0, 0]) = false := by decide
theorem test_wf_pack_count_too_wide : WellFormed ref (.pack 0 4 [0, 0, 0]) = false := by decide
theorem test_wf_pack_lane_missing : WellFormed ref (.pack 0 1 [0, 0]) = false := by decide
theorem test_wf_unpack_index_too_wide : WellFormed ref (.unpack (2 ^ 16) 1 0) = false := by decide
theorem test_wf_unpack_count_too_wide : WellFormed ref (.unpack 0 4 0) = false := by decide
theorem test_wf_unpack_integer_too_wide : WellFormed ref (.unpack 0 1 (2 ^ 32)) = false := by decide
theorem test_wf_accepts : WellFormed ref .nop = true ∧ WellFormed ref (.cfg (2 ^ 32 - 1)) = true ∧
    WellFormed ref (.pack 65535 3 [1, 2, 3]) = true ∧ WellFormed ref (.unpack 65535 3 (2 ^ 32 - 1)) = true := by
  decide

/-! ## Decoding: words written from R61 as arg_idx, arg_len, arg_bytes (lane 2, 1, 0), arg_int, op -/

/-- The word of five fields, each written out at its width. -/
def word (idx : BitVec 16) (len : BitVec 2) (lane2 lane1 lane0 : BitVec 8) (int : BitVec 32) (op : BitVec 2) : Nat :=
  (idx ++ len ++ lane2 ++ lane1 ++ lane0 ++ int ++ op).toNat

/-- NOP with every ignored field set (R64). -/
theorem test_decode_nop :
    decodeTableWord 80 (word 0xFFFF 0b11 0xFF 0xFF 0xFF 0xFFFFFFFF 0b00) = some .nop ∧
    decodeTableWord 8 0x0000000000000000000 = some .nop := by decide

/-- CFG 10007 with the ignored fields set (R64), and the word of R70. -/
theorem test_decode_cfg :
    decodeTableWord 80 (word 0xFFFF 0b11 0xFF 0xFF 0xFF 0x00002717 0b01) = some (.cfg 10007) ∧
    decodeTableWord 80 0x0000000000000009C5D = some (.cfg 10007) := by decide

/-- PACK 1, 2, 0x41, 0x42 with lane 2 and arg_int set; lane 0 is the least significant byte of the bus (R62). -/
theorem test_decode_pack :
    decodeTableWord 80 (word 0x0001 0b10 0x99 0x42 0x41 0x12345678 0b10) = some (.pack 1 2 [0x41, 0x42, 0x99]) ∧
    decodeTableWord 80 0x0000801090400000002 = some (.pack 0 2 [0x41, 0x42, 0x00]) := by decide

/-- UNPACK 2, 1, 300 with the lanes set, and the word of R70. -/
theorem test_decode_unpack :
    decodeTableWord 80 (word 0x0002 0b01 0xFF 0xFF 0xFF 0x0000012C 0b11) = some (.unpack 2 1 300) ∧
    decodeTableWord 80 0x00024000000000004B3 = some (.unpack 2 1 300) := by decide

/-- A number of more than RW bits is no request (R67). -/
theorem test_decode_rejects_wide :
    decodeBits ref (2 ^ 76) = .error .widerThanRequest ∧ decodeTableWord 80 (2 ^ 76) = none := by decide

/-- The configuration of R10. -/
theorem test_reference_widths : ref.bmax = 3 ∧ ref.lw = 2 ∧ ref.blw = 6 ∧ ref.rw = 76 := by decide

/-! ## The assembler (R68, R70) -/

theorem test_assemble_lines :
    (assembleText ref "NOP").map BitVec.toNat = some 0 ∧
    (assembleText ref "CFG 10007 ; the modulus").map BitVec.toNat = some 0x9C5D ∧
    (assembleText ref "PACK 0, 2, 0x41, 0x42").map BitVec.toNat = some 0x0000801090400000002 ∧
    (assembleText ref "UNPACK 1, 1, 10007").map BitVec.toNat = some 0x0001400000000009C5F := by decide

/-- A lane list whose length is not n, n = 0, and n above BMAX are rejected; n above BSZ is not (R68). -/
theorem test_assemble_rejects :
    assembleText ref "PACK 0, 2, 0x41" = none ∧ assembleText ref "PACK 0, 0" = none ∧
    assembleText ref "PACK 0, 4, 1, 2, 3, 4" = none ∧ (assembleText ref "PACK 4, 2, 0x41, 0x42").isSome = true := by
  decide

/-! ## One step of each operation (95_test_vectors.md, section 2) -/

/-- 2.2: NOP clears DONE, and keeps a latched error. -/
theorem test_nop : status (exec .nop (machine (run 10007))) = some (0, 0, false) ∧
    status (exec .nop (machine { run 10007 with err := 4, errIdx := 2 })) = some (4, 2, false) := by decide

/-- 2.1: CFG 10007, and the largest modulus. -/
theorem test_cfg : sizes (exec (.cfg 10007) State.reset) = some (14, 1, true) ∧
    sizes (exec (.cfg 4294967295) State.reset) = some (32, 3, true) := by decide

/-- 2.1: CFG 255 fails with CONFIG, and CFG clears results and a latched error. -/
theorem test_cfg_error : sizes (exec (.cfg 255) (machine (run 10007))) = some (8, 0, false) ∧
    status (exec (.cfg 255) (machine (run 10007))) = some (1, 0, false) ∧
    status (exec (.cfg 10007) (machine { run 10007 with err := 3, errIdx := 1 })) = some (0, 0, true) ∧
    results (exec (.cfg 10007) (machine { run 10007 with resInt := 65 })) = some (0, 0, 0) := by decide

/-- 2.3: lane 0 is the most significant byte, and lanes from n on are ignored. -/
theorem test_pack : results (exec (.pack 5 3 [0x12, 0x34, 0x56]) (machine (run 4294967295))) = some (0x123456, 0, 0) ∧
    results (exec (.pack 0 1 [0x41, 0x99, 0x77]) (machine (run 65537))) = some (65, 0, 0) := by decide

/-- 2.3: OPERAND for n = 0 and for n above BSZ, UNCONFIGURED after reset, refusal while an error is latched. -/
theorem test_pack_errors : status (exec (.pack 3 0 [0, 0, 0]) (machine (run 10007))) = some (6, 3, false) ∧
    status (exec (.pack 4 2 [0x41, 0x42, 0]) (machine (run 10007))) = some (6, 4, false) ∧
    status (exec (.pack 0 1 [0x41, 0, 0]) State.reset) = some (7, 0, false) ∧
    status (exec (.pack 9 1 [0x41, 0, 0]) (machine { run 10007 with err := 3, errIdx := 1 })) = some (3, 1, false) := by
  decide

/-- 2.4: UNPACK 1, 2, 19535 gives [0x4C, 0x4F, 0x00]; zero gives RES_LEN 2. -/
theorem test_unpack : results (exec (.unpack 1 2 19535) (machine (run 16777259))) = some (0, 0x004F4C, 2) ∧
    results (exec (.unpack 0 2 0) (machine (run 65537))) = some (0, 0, 2) := by decide

/-- 2.4: LEN_OVF below P, DEC_RANGE at P and where both checks fail, and the results kept on an error. -/
theorem test_unpack_errors : status (exec (.unpack 5 1 10006) (machine (run 10007))) = some (4, 5, false) ∧
    status (exec (.unpack 6 1 10007) (machine (run 10007))) = some (3, 6, false) ∧
    status (exec (.unpack 7 1 4294967295) (machine (run 10007))) = some (3, 7, false) ∧
    results (exec (.unpack 4 1 300) (machine { run 10007 with resInt := 65, resBytes := 0x41, resLen := 1 })) =
      some (65, 0x41, 1) := by decide

/-- 2.5: reset wins over the request of its cycle. -/
theorem test_reset_discards_request :
    sizes (step { hosting (run 10007) [.present 0x0000400010400000002#76] with rst := [true] }) = some (0, 0, false) ∧
    results (step { hosting (run 10007) [.present 0x0000400010400000002#76] with rst := [true] }) = some (0, 0, 0) := by
  decide

/-- P1 row 2: the word of `PACK 0, 1, 0x41` as the next request; and the same through `withFetchWord`. -/
theorem test_step_runs_word :
    results (step (hosting (run 10007) [.present 0x0000400010400000002#76])) = some (65, 0, 0) ∧
    results (step ((machine (run 10007)).withFetchWord 80 0x0000400010400000002)) = some (65, 0, 0) := by decide

/-! ## One cycle of the harness (95_test_vectors.md, section 2.6) -/

/-- H3: ENCODE(41 42 43, 65537) at its second block presents `PACK 1, 1, 0x43`. -/
theorem test_encode_presents :
    decode ref (harnessAt (run 65537) (.encodePack ⟨[0x41, 0x42, 0x43], 65537, 2, 1, [16706], none⟩)
      ⟨[], [], [], []⟩).sample.1 = .pack 1 1 [0x43, 0, 0] := by decide

/-- H4: DECODE([16706, 67], 65537, 3) unpacks its last block at width 1. -/
theorem test_decode_presents :
    decode ref (harnessAt (run 65537) (.decodeUnpack ⟨[16706, 67], 65537, 3, 2, 1, [0x41, 0x42], none⟩)
      ⟨[], [], [], []⟩).sample.1 = .unpack 1 1 67 := by decide

/-- An integer too large for the port is presented as the largest that fits, which no modulus exceeds (log entry 6). -/
theorem test_wide_integer_presented :
    decode ref (harnessAt (run 10007) (.decodeUnpack ⟨[2 ^ 32 + 65], 10007, 1, 1, 0, [], none⟩)
      ⟨[], [], [], []⟩).sample.1 = .unpack 0 1 (2 ^ 32 - 1) ∧
    status (step (harnessAt (run 10007) (.decodeUnpack ⟨[2 ^ 32 + 65], 10007, 1, 1, 0, [], none⟩) ⟨[], [], [], []⟩)) =
      some (3, 0, false) := by decide

/-- H10, H11 and H12: the block count must be that of an ENCODE of the length. -/
theorem test_block_count :
    blockCountOk 2 3 1 = false ∧ blockCountOk 3 2 1 = false ∧ blockCountOk 0 0 1 = true ∧ blockCountOk 2 3 2 = true := by
  decide

/-- H17: a first byte that differs is a mismatch at offset 0; equal buffers pass (H16). Of several bytes that differ the
first counts, at whatever offset (R158). -/
theorem test_compare :
    compareBuffers (c := ref) [0x42, 0, 0xFF] [0x41, 0, 0xFF] = .fail 5 0 ∧
    compareBuffers (c := ref) [0x41, 0, 0xFE] [0x41, 0, 0xFF] = .fail 5 2 ∧
    compareBuffers (c := ref) [0x41, 1, 0xFE, 7] [0x41, 0, 0xFF, 7] = .fail 5 1 ∧
    compareBuffers (c := ref) [0x41, 0, 0xFF] [0x41, 0, 0xFF] = .pass := by decide

/-- H13: the cycle after a DEC_RANGE of block 1 returns FAIL(3, 1). -/
theorem test_decode_fails :
    (after (step (harnessAt { run 10007 with err := 3, errIdx := 1, done := false }
      (.decodeUnpackIssued ⟨[65, 10007, 255], 10007, 3, 1, 1, [0x41], none⟩) ⟨[], [], [], []⟩))).harness.verdicts.length
      = 1 ∧
    (harnessAt { run 10007 with err := 3, errIdx := 1, done := false }
      (.decodeUnpackIssued ⟨[65, 10007, 255], 10007, 3, 1, 1, [0x41], none⟩) ⟨[], [], [], []⟩).harness.readOutputs
      { run 10007 with err := 3, errIdx := 1, done := false } =
      { Harness.rest ref with verdicts := [.fail 3 1] } := by decide

/-! ## Witnesses: the hypotheses of each statement can be met, in each of its clauses -/

/-- A BCU with room for a single block index (IW = 0), where two blocks are too many (R143). -/
abbrev narrow : Params := ⟨9, 0, by decide⟩

/-- A cipher that has answers for three blocks. -/
def answers (plains : List Nat) : Oracle ref :=
  ⟨[⟨7, (1, 2)⟩], [⟨(1, 2), (3, 4), 5⟩, ⟨(6, 7), (8, 9), 10⟩, ⟨(1, 1), (2, 2), 3⟩], plains, []⟩

/-- VERIFY(41 00 FF, 10007, 1, (2, 3)), the call of vectors H16 to H18. -/
def verifyArgs : VerifyArgs ref := ⟨[0x41, 0x00, 0xFF], 10007, 1, (2, 3)⟩

/-- A machine about to run that VERIFY with a cipher that decrypts to these integers. -/
def verifying (plains : List Nat) : State :=
  ⟨ref, run 10007, [], { Harness.rest ref with todo := [.call (.verify verifyArgs)], oracle := answers plains }⟩

theorem calls_hosting {c : Params} (u : Bcu c) (q : Call c) (rest : List (Machine.Action c)) :
    (hosting u (.call q :: rest)).Calls q :=
  ⟨rfl, rfl, fun _ h => absurd h List.not_mem_nil⟩

theorem calls_verifying (plains : List Nat) : (verifying plains).Calls (.verify verifyArgs) :=
  ⟨rfl, rfl, fun _ h => absurd h List.not_mem_nil⟩

theorem witness_BitlenIsLeastExponent : 255 < 2 ^ 8 ∧ 0 < 2 ^ 0 ∧ 1 ≤ 1 := by decide

theorem witness_BytesBeInvertsBe : 0 < 2 ^ (8 * 0) ∧ 65535 < 2 ^ (8 * 2) := by decide

theorem witness_BscComputesBlockSize : (0 : BitVec ref.pw).toNat = 0 := by decide

theorem witness_PackerComputesBigEndianValue : 0 ≤ ref.bmax ∧ 3 ≤ ref.bmax := by decide

theorem witness_BlockSizeBand : 256 ≤ (256 : BitVec ref.pw).toNat ∧ 1 ≤ bszOf (256 : BitVec ref.pw).toNat ∧
    256 ≤ 16777259 ∧ 3 ≤ bszOf 16777259 := by decide

theorem witness_LargestBlockSize : 2 ^ (8 * ref.bmax) ≤ (16777216 : BitVec ref.pw).toNat ∧
    (4294967295 : BitVec ref.pw).toNat = 2 ^ ref.pw - 1 ∧ (0 : BitVec ref.pw).toNat = 0 ∧
    (255 : BitVec ref.pw).toNat ≤ 255 ∧ 256 ≤ (256 : BitVec ref.pw).toNat ∧ 65536 ≤ (65536 : BitVec ref.pw).toNat := by
  decide

theorem witness_PackedValueFits : 3 ≤ ref.bmax ∧
    (∀ i < 2, lane (0x994241 : BitVec (8 * ref.bmax)) i = lane (0x004241 : BitVec (8 * ref.bmax)) i) := by decide

theorem witness_UnpackerComputesImage : 1 ≤ 1 ∧ 3 ≤ ref.bmax ∧ (255 : BitVec ref.pw).toNat < 2 ^ (8 * 1) := by decide

theorem witness_LengthCheckIsMinimalImageTest : 1 ≤ 1 ∧ 65535 < 2 ^ (8 * 2) := by decide

theorem witness_DecodeEncodeAgree : WellFormed ref .nop = true ∧ WellFormed ref (.cfg (2 ^ 32 - 1)) = true ∧
    WellFormed ref (.pack 65535 3 [1, 2, 3]) = true ∧ WellFormed narrow (.unpack 0 1 511) = true := by decide

theorem witness_EveryOpSelectsItsOperation : (4 : BitVec ref.rw).toNat % 4 = 0 ∧ (5 : BitVec ref.rw).toNat % 4 = 1 ∧
    (6 : BitVec ref.rw).toNat % 4 = 2 ∧ (7 : BitVec ref.rw).toNat % 4 = 3 := by decide

theorem witness_IgnoredFieldsHaveNoEffect :
    (⟨0, 1, 2, 3, 4⟩ : Request ref) ≠ ⟨0, 5, 6, 1, 7⟩ ∧ (⟨1, 9, 2, 3, 4⟩ : Request ref) ≠ ⟨1, 9, 6, 1, 7⟩ ∧
    ((⟨2, 1, 0x994241, 2, 4⟩ : Request ref) ≠ ⟨2, 5, 0x004241, 2, 4⟩ ∧
      ∀ i < 2, lane (0x994241 : BitVec (8 * ref.bmax)) i = lane (0x004241 : BitVec (8 * ref.bmax)) i) ∧
    (⟨3, 9, 2, 3, 4⟩ : Request ref) ≠ ⟨3, 9, 6, 3, 4⟩ := by decide

theorem witness_AssemblerAcceptsOnlyWhatFits :
    assemble ref (.pack 0 2 [0x41, 0x42]) = some (.pack 0 2 [0x41, 0x42, 0]) ∧ [0x41].length ≠ 2 ∧ ref.bmax < 4 := by
  decide

theorem witness_CfgStartsRun : 255 < 2 ^ ref.pw ∧ 256 < 2 ^ ref.pw := by decide

/-- Refusal, UNCONFIGURED, OPERAND at both ends, ENC_RANGE in an unreachable state, and completion. -/
theorem witness_PackFollowsItsRule :
    (WellFormed ref (.pack 0 1 [9, 0, 0]) = true ∧ WellFormed ref (.pack 0 0 [0, 0, 0]) = true) ∧
    (machine { run 10007 with err := 3 }).bcu.err ≠ 0 ∧
    ((machine (Bcu.reset ref)).bcu.err = 0 ∧ (machine (Bcu.reset ref)).bcu.cfgd = false) ∧
    ((machine (run 10007)).bcu.err = 0 ∧ (machine (run 10007)).bcu.cfgd = true ∧ (run 10007).bsz.toNat < 2) ∧
    ((run 16777259).err = 0 ∧ (run 16777259).cfgd = true ∧ 3 ≤ (run 16777259).bsz.toNat ∧ 3 ≤ ref.bmax ∧
      be (fun i => ([9, 0, 0] : List Byte).getD i 0) 3 < (run 16777259).p.toNat) ∧
    (({ run 10007 with p := 5 } : Bcu ref).p.toNat ≤ be (fun i => ([9, 0, 0] : List Byte).getD i 0) 1) := by decide

theorem witness_PackNeverRaisesEncRange : WellFormed ref (.pack 65535 3 [0xFF, 0xFF, 0xFF]) = true ∧
    (machine (run 16777259)).bcu.Inv ∧ (machine (run 16777259)).bcu.cfgd = true ∧
    3 ≤ (machine (run 16777259)).bcu.bsz.toNat ∧ (machine (run 16777259)).bcu.err = 0 := by decide

/-- Refusal, UNCONFIGURED, OPERAND, DEC_RANGE at P, LEN_OVF at 256 and at P - 1, and completion at 255. -/
theorem witness_UnpackFollowsItsRule :
    (WellFormed ref (.unpack 0 1 10007) = true ∧ WellFormed ref (.unpack 0 0 5) = true ∧
      WellFormed ref (.unpack 0 2 5) = true) ∧
    (machine { run 10007 with err := 3 }).bcu.err ≠ 0 ∧
    ((machine (Bcu.reset ref)).bcu.err = 0 ∧ (machine (Bcu.reset ref)).bcu.cfgd = false) ∧
    ((machine (run 10007)).bcu.err = 0 ∧ (machine (run 10007)).bcu.cfgd = true ∧ (run 10007).bsz.toNat = 1 ∧
      1 ≤ ref.bmax) ∧
    (run 10007).p.toNat ≤ 10007 ∧ (256 < (run 10007).p.toNat ∧ 2 ^ (8 * 1) ≤ 256) ∧
    (10006 < (run 10007).p.toNat ∧ 2 ^ (8 * 1) ≤ 10006) ∧ (255 < (run 10007).p.toNat ∧ 255 < 2 ^ (8 * 1)) := by decide

theorem witness_ZeroUnpacksToZeroBytes : WellFormed ref (.unpack 0 2 0) = true ∧ (machine (run 65537)).bcu.Inv ∧
    (machine (run 65537)).bcu.err = 0 ∧ (machine (run 65537)).bcu.cfgd = true ∧ 2 ≤ (run 65537).bsz.toNat := by decide

theorem witness_UnpackInvertsPack : WellFormed ref (.pack 1 2 [0x00, 0x41, 0x77]) = true ∧
    (machine (run 65537)).bcu.Inv ∧ (machine (run 65537)).bcu.err = 0 ∧ (machine (run 65537)).bcu.cfgd = true ∧
    2 ≤ (run 65537).bsz.toNat := by decide

theorem witness_RaiseWritesErrIdxAndDone :
    (status (exec (.pack 4 2 [0x41, 0x42, 0]) (machine (run 10007))) = some (6, 4, false) ∧
      (machine (run 10007)).bcu.err = 0) ∧
    status (exec (.unpack 6 1 10007) (machine (run 10007))) = some (3, 6, false) ∧ 255 < 256 := by decide

theorem witness_LatchedErrorRefusesBlocks : (machine { run 10007 with err := 3 }).bcu.err ≠ 0 := by decide

/-- A completed, a failed and a refused operation, and a CFG that fails. -/
theorem witness_OperationsAreIdempotent :
    (∃ s u, exec (.pack 0 1 [0x41, 0, 0]) s = .next (s.withBcu u) ∧ u.done = true) ∧
    (∃ s u, exec (.unpack 6 1 10007) s = .next (s.withBcu u) ∧ s.bcu.err = 0 ∧ u.err = 3) ∧
    (∃ s u, exec (.pack 9 1 [0x41, 0, 0]) s = .next (s.withBcu u) ∧ s.bcu.err = 3) ∧
    (∃ s u, exec (.cfg 255) s = .next (s.withBcu u)) ∧ (∃ s u, exec .nop s = .next (s.withBcu u)) :=
  ⟨⟨machine (run 10007), _, rfl, by decide⟩, ⟨machine (run 10007), _, rfl, by decide, by decide⟩,
    ⟨machine { run 10007 with err := 3 }, _, rfl, by decide⟩, ⟨State.reset, _, rfl⟩, ⟨State.reset, _, rfl⟩⟩

theorem witness_ResetEdgeClearsRegisters : ({ machine (run 10007) with rst := [true] } : State).rstNow = true := rfl

theorem witness_StepRunsPresentedRequest : ∃ (s : State) (w : BitVec s.cfg.rw) (rest : List (Machine.Action s.cfg)),
    s.harness.ctl = .idle ∧ s.harness.todo = .present w :: rest ∧ s.rstNow = false :=
  ⟨hosting (run 10007) [.present 0x0000400010400000002#76], 0x0000400010400000002#76, [], rfl, rfl, rfl⟩

theorem witness_StepKeepsInvariants :
    (∃ s t, s.bcu.Inv ∧ step s = .next t) ∧ (∃ s t, s.bcu.Inv ∧ exec (.pack 0 2 [0, 0, 0]) s = .next t) :=
  ⟨⟨machine (run 10007), _, by decide, rfl⟩, ⟨machine (run 10007), _, by decide, rfl⟩⟩

theorem witness_StepKeepsErrLegal : ∃ s t, s.bcu.LegalErr ∧ step s = .next t :=
  ⟨machine { run 10007 with err := 7 }, _, by decide, rfl⟩

theorem witness_EncRangeNeverLatched : ∃ s t : State, s.bcu.Inv ∧ s.bcu.err ≠ ErrCode.encRange.code ∧
    (s.bcu.cfgd = true → s.bcu.resInt.toNat < s.bcu.p.toNat) ∧ step s = .next t :=
  ⟨hosting (run 256) [.present (encode ref (.pack 0 1 [0xFF, 0, 0]))], _, by decide, by decide, by decide, rfl⟩

theorem witness_FirstErrorIsKept : ∃ s t : State, s.bcu.err ≠ 0 ∧ step s = .next t ∧ s.rstNow = false ∧
    ∀ p, decode s.cfg s.sample.1 ≠ .cfg p := by
  refine ⟨machine { run 10007 with err := 3, errIdx := 1 }, _, by decide, rfl, rfl, fun p h => ?_⟩
  have hn : decode ref (machine { run 10007 with err := 3, errIdx := 1 }).sample.1 = .nop := by decide
  exact Instr.noConfusion (hn.symm.trans h)

theorem witness_DoneMeansCompleted :
    (∃ s t : State, step s = .next t ∧ s.rstNow = true) ∧
    (∃ s t : State, step s = .next t ∧ s.rstNow = false ∧ t.bcu.done = true) :=
  ⟨⟨{ machine (run 10007) with rst := [true] }, _, rfl, rfl⟩,
    ⟨hosting (run 10007) [.present 0x0000400010400000002#76], _, rfl, rfl, by decide⟩⟩

theorem witness_EncodeReturnsBlockSequence :
    ∃ (s : State) (buf : List Byte) (p : BitVec s.cfg.pw), s.Calls (.encode buf p) ∧ 256 ≤ p.toNat ∧
      blockCount buf.length (bszOf p.toNat) ≤ 2 ^ s.cfg.iw :=
  ⟨hosting (run 10007) [.call (.encode [0x41, 0x42, 0x43] 65537)], [0x41, 0x42, 0x43], (65537 : BitVec 32),
    calls_hosting _ _ _, by decide, by decide⟩

/-- The VERIFY of `verifyArgs` with a modulus below 256. -/
def smallVerify : VerifyArgs ref := { verifyArgs with p := 255 }

theorem witness_SmallModulusFailsConfig :
    (∃ (s : State) (p : BitVec s.cfg.pw) (buf : List Byte), p.toNat < 256 ∧ s.Calls (.encode buf p)) ∧
    (∃ (s : State) (p : BitVec s.cfg.pw) (ints : List Nat) (len : Nat), p.toNat < 256 ∧ s.Calls (.decode ints p len)) ∧
    (∃ (s : State) (v : VerifyArgs s.cfg) (key : Keys) (keys : List Keys), v.p.toNat < 256 ∧ s.Calls (.verify v) ∧
      s.harness.oracle.keys = key :: keys ∧ s.harness.todo.tail = []) :=
  ⟨⟨hosting (run 10007) [.call (.encode [0x41] 255)], (255 : BitVec 32), [0x41], by decide, calls_hosting _ _ _⟩,
    ⟨hosting (run 10007) [.call (.decode [65] 255 1)], (255 : BitVec 32), [65], 1, by decide, calls_hosting _ _ _⟩,
    ⟨⟨ref, run 10007, [], { Harness.rest ref with todo := [.call (.verify smallVerify)], oracle := answers [] }⟩,
      smallVerify, ⟨7, (1, 2)⟩, [], by decide, ⟨rfl, rfl, fun _ h => absurd h List.not_mem_nil⟩, rfl, rfl⟩⟩

theorem witness_ConfigErrorReadsNoByte : (machine (run 10007)).harness.ctl = .idle ∧ (255 : BitVec ref.pw).toNat < 256 ∧
    (∀ level ∈ [false], level = false) ∧ ([0x41] : List Byte) ≠ [0x42, 0x43] :=
  ⟨rfl, by decide, by decide, by decide⟩

/-- The block count at its limit, `1 = 2^IW`. -/
theorem witness_EncodePresentsOnePackPerBlock :
    ∃ (s : State) (buf : List Byte) (p : BitVec s.cfg.pw), s.Calls (.encode buf p) ∧
      s.harness.todo = [.call (.encode buf p)] ∧ 256 ≤ p.toNat ∧
      blockCount buf.length (bszOf p.toNat) ≤ 2 ^ s.cfg.iw :=
  ⟨hosting (Bcu.reset narrow) [.call (.encode [0x41] 256)], [0x41], (256 : BitVec 9), calls_hosting _ _ _, rfl,
    by decide, by decide⟩

theorem witness_DecodeReturnsImages :
    ∃ (s : State) (ints : List Nat) (p : BitVec s.cfg.pw) (len : Nat), s.Calls (.decode ints p len) ∧
      256 ≤ p.toNat ∧ ints.length = blockCount len (bszOf p.toNat) ∧ ints.length ≤ 2 ^ s.cfg.iw ∧
      ∀ k < ints.length, ints.getD k 0 < p.toNat ∧
        ints.getD k 0 < 2 ^ (8 * blockWidth len (bszOf p.toNat) ints.length k) :=
  ⟨hosting (run 10007) [.call (.decode [16706, 67] 65537 3)], [16706, 67], (65537 : BitVec 32), 3, calls_hosting _ _ _,
    by decide, by decide, by decide, by decide⟩

/-- All blocks good (H4), a first bad block in the middle at or above the modulus, of more than PW bits even, and one too
long for its width (H15). -/
theorem witness_DecodePresentsOneUnpackPerBlock :
    (∃ (s : State) (ints : List Nat) (p : BitVec s.cfg.pw) (len m : Nat), s.Calls (.decode ints p len) ∧
      s.harness.todo = [.call (.decode ints p len)] ∧ 256 ≤ p.toNat ∧
      ints.length = blockCount len (bszOf p.toNat) ∧ ints.length ≤ 2 ^ s.cfg.iw ∧ m = ints.length ∧
      ∀ k < m, ints.getD k 0 < p.toNat ∧ ints.getD k 0 < 2 ^ (8 * blockWidth len (bszOf p.toNat) ints.length k)) ∧
    (∃ (s : State) (ints : List Nat) (p : BitVec s.cfg.pw) (len m : Nat), s.Calls (.decode ints p len) ∧
      s.harness.todo = [.call (.decode ints p len)] ∧ 256 ≤ p.toNat ∧
      ints.length = blockCount len (bszOf p.toNat) ∧ ints.length ≤ 2 ^ s.cfg.iw ∧ 0 < m ∧ m < ints.length ∧
      (∀ k < m, ints.getD k 0 < p.toNat ∧ ints.getD k 0 < 2 ^ (8 * blockWidth len (bszOf p.toNat) ints.length k)) ∧
      2 ^ s.cfg.pw ≤ ints.getD m 0) ∧
    (∃ (s : State) (ints : List Nat) (p : BitVec s.cfg.pw) (len m : Nat), s.Calls (.decode ints p len) ∧
      s.harness.todo = [.call (.decode ints p len)] ∧ 256 ≤ p.toNat ∧
      ints.length = blockCount len (bszOf p.toNat) ∧ ints.length ≤ 2 ^ s.cfg.iw ∧ m < ints.length ∧
      (∀ k < m, ints.getD k 0 < p.toNat ∧ ints.getD k 0 < 2 ^ (8 * blockWidth len (bszOf p.toNat) ints.length k)) ∧
      2 ^ (8 * blockWidth len (bszOf p.toNat) ints.length m) ≤ ints.getD m 0 ∧ ints.getD m 0 < p.toNat) :=
  ⟨⟨hosting (run 10007) [.call (.decode [16706, 67] 65537 3)], [16706, 67], (65537 : BitVec 32), 3, 2,
      calls_hosting _ _ _, rfl, by decide, by decide, by decide, by decide, by decide⟩,
    ⟨hosting (run 10007) [.call (.decode [65, 2 ^ 32 + 65, 255] 10007 3)], [65, 2 ^ 32 + 65, 255], (10007 : BitVec 32), 3,
      1, calls_hosting _ _ _, rfl, by decide, by decide, by decide, by decide, by decide, by decide, by decide⟩,
    ⟨hosting (run 10007) [.call (.decode [16706, 16706] 65537 3)], [16706, 16706], (65537 : BitVec 32), 3, 1,
      calls_hosting _ _ _, rfl, by decide, by decide, by decide, by decide, by decide, by decide, by decide⟩⟩

/-- Vectors H10 and H11. -/
theorem witness_WrongBlockCountFails :
    (∃ (s : State) (ints : List Nat) (p : BitVec s.cfg.pw) (len : Nat), s.Calls (.decode ints p len) ∧
      256 ≤ p.toNat ∧ ints.length < (len + bszOf p.toNat - 1) / bszOf p.toNat) ∧
    (∃ (s : State) (ints : List Nat) (p : BitVec s.cfg.pw) (len : Nat), s.Calls (.decode ints p len) ∧
      256 ≤ p.toNat ∧ (len + bszOf p.toNat - 1) / bszOf p.toNat < ints.length) :=
  ⟨⟨hosting (run 10007) [.call (.decode [65, 0] 10007 3)], [65, 0], (10007 : BitVec 32), 3, calls_hosting _ _ _,
      by decide, by decide⟩,
    ⟨hosting (run 10007) [.call (.decode [65, 0] 10007 1)], [65, 0], (10007 : BitVec 32), 1, calls_hosting _ _ _,
      by decide, by decide⟩⟩

/-- Vectors H13 and H15: block 1 at the modulus, and one too long for its last block. -/
theorem witness_DecodeReportsFirstBadBlock :
    (∃ (s : State) (ints : List Nat) (p : BitVec s.cfg.pw) (len : Nat), s.Calls (.decode ints p len) ∧
      256 ≤ p.toNat ∧ ints.length = blockCount len (bszOf p.toNat) ∧ ints.length ≤ 2 ^ s.cfg.iw ∧ 1 < ints.length ∧
      (∀ j < 1, ints.getD j 0 < p.toNat ∧ ints.getD j 0 < 2 ^ (8 * blockWidth len (bszOf p.toNat) ints.length j)) ∧
      p.toNat ≤ ints.getD 1 0) ∧
    (∃ (s : State) (ints : List Nat) (p : BitVec s.cfg.pw) (len : Nat), s.Calls (.decode ints p len) ∧
      256 ≤ p.toNat ∧ ints.length = blockCount len (bszOf p.toNat) ∧ ints.length ≤ 2 ^ s.cfg.iw ∧ 1 < ints.length ∧
      (∀ j < 1, ints.getD j 0 < p.toNat ∧ ints.getD j 0 < 2 ^ (8 * blockWidth len (bszOf p.toNat) ints.length j)) ∧
      ints.getD 1 0 < p.toNat ∧ 2 ^ (8 * blockWidth len (bszOf p.toNat) ints.length 1) ≤ ints.getD 1 0) :=
  ⟨⟨hosting (run 10007) [.call (.decode [65, 10007, 255] 10007 3)], [65, 10007, 255], (10007 : BitVec 32), 3,
      calls_hosting _ _ _, by decide, by decide, by decide, by decide, by decide, by decide⟩,
    ⟨hosting (run 10007) [.call (.decode [16706, 16706] 65537 3)], [16706, 16706], (65537 : BitVec 32), 3,
      calls_hosting _ _ _, by decide, by decide, by decide, by decide, by decide, by decide, by decide⟩⟩

/-- Two blocks where the index can name one. -/
theorem witness_TooManyBlocksRefused :
    (∃ (s : State) (p : BitVec s.cfg.pw) (buf : List Byte), 256 ≤ p.toNat ∧ s.Calls (.encode buf p) ∧
      s.harness.todo = [.call (.encode buf p)] ∧ 2 ^ s.cfg.iw < blockCount buf.length (bszOf p.toNat)) ∧
    (∃ (s : State) (p : BitVec s.cfg.pw) (ints : List Nat) (len : Nat), 256 ≤ p.toNat ∧
      s.Calls (.decode ints p len) ∧ s.harness.todo = [.call (.decode ints p len)] ∧
      ints.length = blockCount len (bszOf p.toNat) ∧ 2 ^ s.cfg.iw < ints.length) ∧
    (∃ (s : State) (v : VerifyArgs s.cfg) (key : Keys) (keys : List Keys), 256 ≤ v.p.toNat ∧ s.Calls (.verify v) ∧
      s.harness.todo = [.call (.verify v)] ∧ s.harness.oracle.keys = key :: keys ∧
      2 ^ s.cfg.iw < blockCount v.src.length (bszOf v.p.toNat)) :=
  ⟨⟨hosting (Bcu.reset narrow) [.call (.encode [0x41, 0x42] 256)], (256 : BitVec 9), [0x41, 0x42], by decide,
      calls_hosting _ _ _, rfl, by decide⟩,
    ⟨hosting (Bcu.reset narrow) [.call (.decode [65, 66] 256 2)], (256 : BitVec 9), [65, 66],
      2, by decide, calls_hosting _ _ _, rfl, by decide, by decide⟩,
    ⟨⟨narrow, Bcu.reset narrow, [], { Harness.rest narrow with
        todo := [.call (.verify ⟨[0x41, 0x42], 256, 1, (2, 3)⟩)], oracle := ⟨[⟨7, (1, 2)⟩], [], [], []⟩ }⟩,
      (⟨[0x41, 0x42], 256, 1, (2, 3)⟩ : VerifyArgs narrow), ⟨7, (1, 2)⟩, [], by decide,
      ⟨rfl, rfl, fun _ h => absurd h List.not_mem_nil⟩, rfl, rfl, by decide⟩⟩

theorem witness_CodecRoundTrip :
    (∃ (s : State) (buf : List Byte) (p : BitVec s.cfg.pw), s.Calls (.encode buf p) ∧ 256 ≤ p.toNat ∧
      blockCount buf.length (bszOf p.toNat) ≤ 2 ^ s.cfg.iw) ∧
    (hosting (run 10007) [.call (.decode [16706, 67] 65537 3)]).Calls (.decode [16706, 67] 65537 3) :=
  ⟨⟨hosting (run 10007) [.call (.encode [0x41, 0x42, 0x43] 65537)], [0x41, 0x42, 0x43], (65537 : BitVec 32),
    calls_hosting _ _ _, by decide, by decide⟩, calls_hosting _ _ _⟩

/-- Vector H16. -/
theorem witness_VerifyPassesWithHonestCipher : (verifying [65, 0, 255, 9]).Calls (.verify verifyArgs) ∧
    256 ≤ verifyArgs.p.toNat ∧ blockCount verifyArgs.src.length (bszOf verifyArgs.p.toNat) ≤ 2 ^ ref.iw ∧
    (answers [65, 0, 255, 9]).keys = [⟨7, (1, 2)⟩] ∧
    (answers [65, 0, 255, 9]).records = [⟨(1, 2), (3, 4), 5⟩, ⟨(6, 7), (8, 9), 10⟩, ⟨(1, 1), (2, 2), 3⟩] ++ [] ∧
    3 = blockCount verifyArgs.src.length (bszOf verifyArgs.p.toNat) ∧
    (answers [65, 0, 255, 9]).plains = blockInts verifyArgs.src (bszOf verifyArgs.p.toNat) ++ [9] ∧
    (verifying [65, 0, 255, 9]).harness.todo.tail = [] :=
  ⟨calls_verifying _, by decide, by decide, rfl, rfl, by decide, by decide, rfl⟩

/-- A cipher whose answer for block 1 has more than PW bits. -/
theorem witness_VerifyCallsCipherByIndex : (verifying [65, 2 ^ 32, 255, 9]).Calls (.verify verifyArgs) ∧
    256 ≤ verifyArgs.p.toNat ∧ blockCount verifyArgs.src.length (bszOf verifyArgs.p.toNat) ≤ 2 ^ ref.iw ∧
    (answers [65, 2 ^ 32, 255, 9]).keys = [⟨7, (1, 2)⟩] ∧
    (answers [65, 2 ^ 32, 255, 9]).records = [⟨(1, 2), (3, 4), 5⟩, ⟨(6, 7), (8, 9), 10⟩, ⟨(1, 1), (2, 2), 3⟩] ++ [] ∧
    3 = blockCount verifyArgs.src.length (bszOf verifyArgs.p.toNat) ∧
    (answers [65, 2 ^ 32, 255, 9]).plains = [65, 2 ^ 32, 255] ++ [9] :=
  ⟨calls_verifying _, by decide, by decide, rfl, rfl, by decide, rfl⟩

/-- Vector H18, where decrypt returns the modulus for block 1; an answer of more than PW bits; and one too long for its
block. -/
theorem witness_VerifyReportsOutOfRange : (∀ m ∈ [10007, 2 ^ 32, 256], (verifying [65, m, 255]).Calls (.verify verifyArgs) ∧
      256 ≤ verifyArgs.p.toNat ∧ blockCount verifyArgs.src.length (bszOf verifyArgs.p.toNat) ≤ 2 ^ ref.iw ∧
      (answers [65, m, 255]).keys ≠ [] ∧
      blockCount verifyArgs.src.length (bszOf verifyArgs.p.toNat) ≤ (answers [65, m, 255]).records.length ∧
      blockCount verifyArgs.src.length (bszOf verifyArgs.p.toNat) ≤ (answers [65, m, 255]).plains.length ∧
      1 < blockCount verifyArgs.src.length (bszOf verifyArgs.p.toNat) ∧
      (∀ j < 1, (answers [65, m, 255]).plains.getD j 0 < verifyArgs.p.toNat ∧
        (answers [65, m, 255]).plains.getD j 0 <
          2 ^ (8 * chunkLen verifyArgs.src.length (bszOf verifyArgs.p.toNat) j))) ∧
    verifyArgs.p.toNat ≤ (answers [65, 10007, 255]).plains.getD 1 0 ∧
    verifyArgs.p.toNat ≤ (answers [65, 2 ^ 32, 255]).plains.getD 1 0 ∧
    (answers [65, 256, 255]).plains.getD 1 0 < verifyArgs.p.toNat ∧
    2 ^ (8 * chunkLen verifyArgs.src.length (bszOf verifyArgs.p.toNat) 1) ≤ (answers [65, 256, 255]).plains.getD 1 0 :=
  ⟨fun _ _ => ⟨calls_verifying _, by decide, by decide, by decide +revert, by decide +revert, by decide +revert, by decide,
    by decide +revert⟩, by decide, by decide, by decide, by decide⟩

theorem witness_ComparisonFailsAtLeastOffset :
    ([0x41, 0, 0xFF] : List Byte).length = ([0x41, 0, 0xFF] : List Byte).length ∧
    ([0x41, 1, 0xFE] : List Byte).length = ([0x41, 0, 0xFF] : List Byte).length ∧
    ([0x41, 1, 0xFE] : List Byte) ≠ [0x41, 0, 0xFF] := by decide

/-- Vector H17, where decrypt returns 66 for block 0; and a cipher whose answer for the last block is wrong. -/
theorem witness_VerifyReportsMismatch : ∀ l ∈ [[66, 0, 255], [65, 0, 254]], ∃ k < 3,
    (verifying l).Calls (.verify verifyArgs) ∧
    256 ≤ verifyArgs.p.toNat ∧ blockCount verifyArgs.src.length (bszOf verifyArgs.p.toNat) ≤ 2 ^ ref.iw ∧
    (answers l).keys ≠ [] ∧
    blockCount verifyArgs.src.length (bszOf verifyArgs.p.toNat) ≤ (answers l).records.length ∧
    blockCount verifyArgs.src.length (bszOf verifyArgs.p.toNat) ≤ (answers l).plains.length ∧
    (∀ j < blockCount verifyArgs.src.length (bszOf verifyArgs.p.toNat),
      (answers l).plains.getD j 0 < verifyArgs.p.toNat ∧
      (answers l).plains.getD j 0 < 2 ^ (8 * chunkLen verifyArgs.src.length (bszOf verifyArgs.p.toNat) j)) ∧
    k < blockCount verifyArgs.src.length (bszOf verifyArgs.p.toNat) ∧
    (answers l).plains.getD k 0 ≠ blockInt verifyArgs.src (bszOf verifyArgs.p.toNat) k := by
  decide

theorem witness_PassOnlyOnEqualBuffers :
    (∃ s t : State, step s = .next t ∧ t.harness.verdicts.length = s.harness.verdicts.length + 1 ∧
      t.harness.verdicts.getLast? = some .pass) ∧
    (∃ s t : State, step s = .next t ∧ t.harness.verdicts.length = s.harness.verdicts.length + 1 ∧
      t.harness.verdicts.getLast? = some .pass) :=
  ⟨⟨harnessAt (run 10007) (.decodeCfgIssued ⟨[], 10007, 0, 0, 0, [], some []⟩) ⟨[], [], [], []⟩, _, rfl, by decide,
      by decide⟩,
    ⟨harnessAt { run 10007 with resBytes := 0x41, resLen := 1 }
      (.decodeUnpackIssued ⟨[65], 10007, 1, 1, 0, [], some [0x41]⟩) ⟨[], [], [], []⟩, _, rfl, by decide, by decide⟩⟩

theorem witness_BundleIsStoredAndReadBack :
    ∃ (s : State) (v : VerifyArgs s.cfg) (key : Keys) (ints : List (BitVec s.cfg.pw)) (records : List Record),
      s.harness.ctl = .encrypt v key ints records ∧ ints.length ≤ records.length ∧ s.harness.waits = [] :=
  ⟨harnessAt (run 10007) (.encrypt verifyArgs ⟨7, (1, 2)⟩ [65] [⟨(1, 2), (3, 4), 5⟩]) (answers []), verifyArgs,
    ⟨7, (1, 2)⟩, [(65 : BitVec 32)], [⟨(1, 2), (3, 4), 5⟩], rfl, by decide, rfl⟩

theorem witness_FailEndsTheRun :
    (∃ (s : State) (e : EncodeJob s.cfg), s.harness.ctl = .encodePackIssued e ∧ s.bcu.err ≠ 0 ∧
      s.harness.todo = []) ∧
    (∃ (s : State) (d : DecodeJob s.cfg), s.harness.ctl = .decodeUnpackIssued d ∧ s.bcu.err ≠ 0 ∧
      s.harness.todo = []) :=
  ⟨⟨harnessAt { run 10007 with err := 6 } (.encodePackIssued ⟨[0x41], 10007, 1, 0, [], none⟩) ⟨[], [], [], []⟩,
      (⟨[0x41], 10007, 1, 0, [], none⟩ : EncodeJob ref), rfl, by decide, rfl⟩,
    ⟨harnessAt { run 10007 with err := 3, errIdx := 1 } (.decodeUnpackIssued ⟨[65, 10007], 10007, 2, 1, 1, [0x41], none⟩)
      ⟨[], [], [], []⟩, (⟨[65, 10007], 10007, 2, 1, 1, [0x41], none⟩ : DecodeJob ref), rfl, by decide, rfl⟩⟩

theorem step_answers (s : State) (h : s.rstNow = false) : ∃ t, step s = .next t := by
  obtain ⟨u, hu⟩ := exec_cases (decode s.cfg s.sample.1) s.sample.2
  exact ⟨_, (step_of_request h).trans hu⟩

/-- A VERIFY about to encrypt the integer 65. -/
theorem witness_EncryptIsCalledInRange : ∃ s t : State, s.bcu.Inv ∧ s.EncryptsInRange ∧ step s = .next t := by
  obtain ⟨t, ht⟩ := step_answers
    (harnessAt (run 10007) (.encrypt verifyArgs ⟨7, (1, 2)⟩ [65] []) (answers [])) rfl
  refine ⟨_, t, ?_, ⟨?_, ?_, ?_⟩, ht⟩
  · exact (by decide : (run 10007).Inv)
  · exact (by decide : (run 10007).ResIntInRange)
  · intro m hm
    rw [List.mem_singleton.mp hm]
    decide
  · exact fun _ _ _ _ _ _ _ h => absurd h List.not_mem_nil

end Sys2Proof.Tests
end

section
/-! SUPPORT and PROOFS. The spec's notation: bit length (R13), big-endian value (R15) and big-endian image (R16). -/

namespace Sys2Proof

/-! ## Bit length -/

@[simp] theorem bitlen_zero : bitlen 0 = 0 := rfl

theorem bitlen_of_pos {x : Nat} (h : 1 ≤ x) : bitlen x = Nat.log 2 x + 1 := by
  rw [bitlen, if_neg (by omega), Nat.log2_eq_log_two]

/-- The bit length is the least exponent of two above a number: every comparison with it is one with a power. -/
theorem bitlen_le_iff (x k : Nat) : bitlen x ≤ k ↔ x < 2 ^ k := by
  rcases Nat.eq_zero_or_pos x with rfl | hx
  · simp
  · rw [bitlen_of_pos hx, Nat.succ_le_iff, Nat.log_lt_iff_lt_pow Nat.one_lt_two hx.ne']

theorem lt_two_pow_bitlen (x : Nat) : x < 2 ^ bitlen x := (bitlen_le_iff x _).1 le_rfl

end Sys2Proof

namespace Sys2Proof.Machine

/-! ## The big-endian value -/

/-- The powers of 256 are the powers of two that a whole number of bytes spans. -/
theorem pow_256 (n : Nat) : 256 ^ n = 2 ^ (8 * n) := by rw [pow_mul]; norm_num

@[simp] theorem be_zero (d : Nat → Byte) : be d 0 = 0 := rfl

theorem be_succ (d : Nat → Byte) (n : Nat) : be d (n + 1) = 256 * be d n + (d n).toNat := rfl

theorem be_eq_sum (d : Nat → Byte) (n : Nat) :
    be d n = ∑ i ∈ Finset.range n, (d i).toNat * 256 ^ (n - 1 - i) := by
  induction n with
  | zero => rfl
  | succ n ih =>
    have weight_succ : ∀ i ∈ Finset.range n,
        256 * ((d i).toNat * 256 ^ (n - 1 - i)) = (d i).toNat * 256 ^ (n + 1 - 1 - i) := by
      intro i hi
      have : n + 1 - 1 - i = n - 1 - i + 1 := by have := Finset.mem_range.1 hi; omega
      rw [this, pow_succ]; ring
    rw [be_succ, ih, Finset.sum_range_succ, Finset.mul_sum, Finset.sum_congr rfl weight_succ]
    simp

/-- The value depends on the first `n` lanes alone. -/
theorem be_congr {d d' : Nat → Byte} {n : Nat} (h : ∀ i < n, d i = d' i) : be d n = be d' n := by
  induction n with
  | zero => rfl
  | succ n ih => rw [be_succ, be_succ, ih fun i hi => h i (hi.trans n.lt_succ_self), h n n.lt_succ_self]

/-! ## The big-endian image -/

theorem byteBe_toNat (m w i : Nat) : (byteBe m w i).toNat = m / 256 ^ (w - 1 - i) % 256 := by
  simp [byteBe]

/-- Before its last byte, the image of `m` is that of `m / 256`. -/
theorem byteBe_succ {w i : Nat} (m : Nat) (h : i < w) : byteBe m (w + 1) i = byteBe (m / 256) w i := by
  have : w + 1 - 1 - i = w - 1 - i + 1 := by omega
  rw [byteBe, byteBe, this, pow_succ', Nat.div_div_eq_div_mul]

/-- Image and value are inverse, up to what `w` bytes can hold. -/
theorem be_byteBe (m w : Nat) : be (byteBe m w) w = m % 256 ^ w := by
  induction w generalizing m with
  | zero => simp [Nat.mod_one]
  | succ w ih =>
    have last : (byteBe m (w + 1) w).toNat = m % 256 := by simp [byteBe_toNat]
    rw [be_succ, be_congr fun i hi => byteBe_succ m hi, ih, last, pow_succ', Nat.mod_mul, Nat.add_comm]

@[simp] theorem bytesBe_length (m w : Nat) : (bytesBe m w).length = w := by simp [bytesBe]

theorem bytesBe_getD {w i : Nat} (m : Nat) (h : i < w) : (bytesBe m w).getD i 0 = byteBe m w i := by
  simp [bytesBe, h]

theorem be_bytesBe {m w : Nat} (h : m < 256 ^ w) : be (fun i => (bytesBe m w).getD i 0) w = m := by
  rw [be_congr fun i hi => bytesBe_getD m hi, be_byteBe, Nat.mod_eq_of_lt h]

/-- The bytes that a value does not reach are 0. -/
theorem byteBe_eq_zero {m v i a : Nat} (h : m < 256 ^ v) (hi : i < a) : byteBe m (a + v) i = 0 := by
  have : m < 256 ^ (a + v - 1 - i) := h.trans_le (Nat.pow_le_pow_right (by norm_num) (by omega))
  rw [byteBe, Nat.div_eq_of_lt this]; rfl

/-- An image that is longer than the value needs starts with zero bytes. -/
theorem bytesBe_add {m v : Nat} (a : Nat) (h : m < 256 ^ v) :
    bytesBe m (a + v) = List.replicate a 0 ++ bytesBe m v := by
  have front : (List.range a).map (byteBe m (a + v)) = List.replicate a 0 :=
    List.eq_replicate_iff.2 ⟨by simp, by simpa using fun i hi => byteBe_eq_zero h hi⟩
  have back : ∀ i, byteBe m (a + v) (a + i) = byteBe m v i := by
    intro i
    rw [byteBe, byteBe, show a + v - 1 - (a + i) = v - 1 - i by omega]
  simp [bytesBe, List.range_add, front, back]

/-- `(bitlen m + 7) / 8` bytes are the fewest that hold `m`. -/
theorem minimalWidth_le_iff (m w : Nat) : (bitlen m + 7) / 8 ≤ w ↔ m < 256 ^ w := by
  rw [pow_256, ← bitlen_le_iff]; omega

theorem bytesBe_eq_padded_minimal {m w : Nat} (h : m < 256 ^ w) :
    bytesBe m w = List.replicate (w - (bitlen m + 7) / 8) 0 ++ bytesBe m ((bitlen m + 7) / 8) := by
  have fits : m < 256 ^ ((bitlen m + 7) / 8) := (minimalWidth_le_iff m _).1 le_rfl
  rw [← bytesBe_add _ fits, Nat.sub_add_cancel ((minimalWidth_le_iff m w).2 h)]

end Sys2Proof.Machine

namespace Sys2Proof.Proofs

open Sys2Proof Sys2Proof.Machine

/-- Settles O1: the bound and its leastness are the two directions of `bitlen_le_iff`. -/
theorem bitlenIsLeastExponent : Obligations.BitlenIsLeastExponent :=
  ⟨lt_two_pow_bitlen, fun x k => (bitlen_le_iff x k).2, fun _ => bitlen_of_pos, bitlen_zero⟩

/-- Settles O2, by induction on the number of lanes (`be_eq_sum`). -/
theorem bigEndianValueIsPowerSum : Obligations.BigEndianValueIsPowerSum :=
  fun d n => ⟨be_eq_sum d n, be_zero d⟩

/-- Settles O3: `be` inverts the image by induction on the width (`be_byteBe`), and the padding is the bytes that `m`
does not reach (`bytesBe_add`). -/
theorem bytesBeInvertsBe : Obligations.BytesBeInvertsBe := by
  intro m w hm
  rw [← pow_256] at hm
  refine ⟨bytesBe_length m w, fun i hi => ?_, be_bytesBe hm, bytesBe_eq_padded_minimal hm⟩
  rw [bytesBe_getD m hi, byteBe_toNat]

end Sys2Proof.Proofs
end

section
/-! SUPPORT. The block size fits its register (R7, R8, R80), and the lanes that UNPACKER leaves empty are 0 (R120). -/

namespace Sys2Proof.Machine

variable {c : Params}

/-- The bit length of a modulus fits BITLEN. -/
@[simp] theorem bsc_bitlenO_toNat (p : BitVec c.pw) : (bsc c p).bitlenO.toNat = Sys2Proof.bitlen p.toNat := by
  have hp : Sys2Proof.bitlen p.toNat ≤ c.pw := (bitlen_le_iff _ _).2 p.isLt
  exact Nat.mod_eq_of_lt (hp.trans_lt (lt_two_pow_bitlen c.pw))

theorem bszOf_le_bmax (p : BitVec c.pw) : bszOf p.toNat ≤ c.bmax := by
  have hp : Sys2Proof.bitlen p.toNat ≤ c.pw := (bitlen_le_iff _ _).2 p.isLt
  exact Nat.div_le_div_right (Nat.sub_le_sub_right hp 1)

/-- The block size of a modulus fits BSZ. -/
@[simp] theorem bsc_bszO_toNat (p : BitVec c.pw) : (bsc c p).bszO.toNat = bszOf p.toNat :=
  Nat.mod_eq_of_lt ((bszOf_le_bmax p).trans_lt (lt_two_pow_bitlen c.bmax))

@[simp] theorem bsc_cfgErr (p : BitVec c.pw) : (bsc c p).cfgErr = cfgErr (bszOf p.toNat) := rfl

theorem lane_unpackerLanes (m w : Nat) {i : Nat} (hi : i < c.bmax) :
    lane (unpackerLanes c m w) i = if i < w then byteBe m w i else 0 := by
  simp [unpackerLanes, lane_busOf c _ hi, hi]

end Sys2Proof.Machine
end

section
/-! SUPPORT. The ways a block operation can end, said once for PACK and UNPACK (R173). -/

namespace Sys2Proof.Machine

variable {c : Params}

/-- The errors a block operation can raise: UNCONFIGURED without a configuration, one about its operands with one
(R105, R125, R173). -/
def Bcu.BlockError (u : Bcu c) (e : ErrCode) : Prop :=
  (u.cfgd = false ∧ e = .unconfigured) ∨
  (u.cfgd = true ∧ (e = .encRange ∨ e = .decRange ∨ e = .lenOvf ∨ e = .operand))

/-- The registers that a block operation on block `k` with `n` bytes leaves: those of a refusal or of an error raised,
or `result`, where it passes its checks and `ok` holds of its leaf function. -/
inductive Bcu.BlockEnds (u : Bcu c) (k : BitVec c.iw) (n : BitVec c.lw) (ok : Prop) (result : Bcu c) : Bcu c → Prop
  | refused (latched : u.err ≠ ErrCode.none.code) : u.BlockEnds k n ok result u.refuse
  | raised (e : ErrCode) (clear : u.err = ErrCode.none.code) (he : u.BlockError e) :
      u.BlockEnds k n ok result (u.raise e k)
  | completed (admits : u.Admits n) (hok : ok) : u.BlockEnds k n ok result result

theorem Bcu.pack_ends (u : Bcu c) (k : BitVec c.iw) (n : BitVec c.lw) (d : BitVec (8 * c.bmax)) :
    u.BlockEnds k n ((packer c d n.toNat u.p).rangeErr = false)
      { u with resInt := (packer c d n.toNat u.p).v, done := true } (u.pack k n d) := by
  rcases u.pack_cases k n d with ⟨he, h⟩ | ⟨he, hc, h⟩ | ⟨he, hc, -, h⟩ | ⟨ha, -, h⟩ | ⟨ha, hr, h⟩ <;> rw [h]
  · exact .refused he
  · exact .raised _ he (.inl ⟨hc, rfl⟩)
  · exact .raised _ he (.inr ⟨hc, by simp⟩)
  · exact .raised _ ha.1 (.inr ⟨ha.2.1, by simp⟩)
  · exact .completed ha hr

theorem Bcu.unpack_ends (u : Bcu c) (k : BitVec c.iw) (w : BitVec c.lw) (m : BitVec c.pw) :
    u.BlockEnds k w ((unpacker c m w.toNat u.p).rangeErr = false ∧ (unpacker c m w.toNat u.p).lenErr = false)
      { u with resBytes := (unpacker c m w.toNat u.p).q, resLen := w, done := true } (u.unpack k w m) := by
  rcases u.unpack_cases k w m with
    ⟨he, h⟩ | ⟨he, hc, h⟩ | ⟨he, hc, -, h⟩ | ⟨ha, -, h⟩ | ⟨ha, -, -, h⟩ | ⟨ha, hr, hl, h⟩ <;> rw [h]
  · exact .refused he
  · exact .raised _ he (.inl ⟨hc, rfl⟩)
  · exact .raised _ he (.inr ⟨hc, by simp⟩)
  · exact .raised _ ha.1 (.inr ⟨ha.2.1, by simp⟩)
  · exact .raised _ ha.1 (.inr ⟨ha.2.1, by simp⟩)
  · exact .completed ha ⟨hr, hl⟩

namespace Bcu.BlockEnds

variable {u v result : Bcu c} {k : BitVec c.iw} {n : BitVec c.lw} {ok : Prop}

/-- A block operation completes, or it writes ERR, ERR_IDX and DONE at most and leaves DONE 0. -/
theorem frame (h : u.BlockEnds k n ok result v) :
    v = result ∨ ∃ e idx, v = { u with err := e, errIdx := idx, done := false } := by
  cases h with
  | refused => exact .inr ⟨u.err, u.errIdx, rfl⟩
  | raised e => exact .inr ⟨e.code, k, rfl⟩
  | completed => exact .inl rfl

/-- A block operation leaves DONE 1 exactly if it leaves no error: what it refuses has an error latched already. -/
theorem done_iff (h : u.BlockEnds k n ok result v) (hdone : result.done = true) (herr : result.err = u.err) :
    v.done = true ↔ v.err = ErrCode.none.code := by
  cases h with
  | refused latched => simp [latched]
  | raised e _ he => rcases he with ⟨-, rfl⟩ | ⟨-, rfl | rfl | rfl | rfl⟩ <;> simp
  | completed admits => simp [hdone, herr, admits.1]

theorem legalErr (h : u.BlockEnds k n ok result v) (hu : u.LegalErr) (herr : result.err = u.err) : v.LegalErr := by
  cases h with
  | refused => exact hu
  | raised e _ he => rcases he with ⟨-, rfl⟩ | ⟨-, rfl | rfl | rfl | rfl⟩ <;> simp [Bcu.LegalErr]
  | completed => rwa [Bcu.LegalErr, herr]

end Bcu.BlockEnds

end Sys2Proof.Machine
end

section
/-! SUPPORT. The invariants of R33, item by item for each operation. -/

namespace Sys2Proof.Machine

variable {c : Params} {u : Bcu c}

theorem Bcu.inv_reset (c : Params) : (Bcu.reset c).Inv := by
  refine ⟨⟨rfl, ?_⟩, ?_, ?_, fun _ => rfl, ?_, ?_⟩
  · simp [Bcu.reset, bszOf]
  · simp [Bcu.CfgdWhenSized, Bcu.reset]
  · simp [Bcu.ErrMatchesCfgd, Bcu.reset, ErrCode.code]
  · simp [Bcu.LenBounded, Bcu.reset]
  · simp [Bcu.UpperLanesZero, Bcu.reset, lane]

/-- CFG leaves the invariants true whatever held before: it writes every register. -/
theorem Bcu.inv_configure (p : BitVec c.pw) : (Bcu.configure c p).Inv := by
  refine ⟨⟨bsc_bitlenO_toNat p, bsc_bszO_toNat p⟩, ?_, ?_, fun _ => rfl, ?_, ?_⟩
  · simp [Bcu.CfgdWhenSized]
  · cases hb : cfgErr (bszOf p.toNat) <;> simp [Bcu.ErrMatchesCfgd, hb, ErrCode.code]
  · simp [Bcu.LenBounded]
  · simp [Bcu.UpperLanesZero, lane]

/-- A raised error touches only the items about ERR; it keeps them because UNCONFIGURED is raised without a
configuration and the other errors with one. -/
theorem Bcu.inv_raise {e : ErrCode} (h : u.Inv) (he : u.BlockError e) (k : BitVec c.iw) : (u.raise e k).Inv := by
  obtain ⟨hderived, hcfgd, -, -, hlen, hlanes⟩ := h
  refine ⟨hderived, hcfgd, ?_, ?_, hlen, hlanes⟩ <;>
    rcases he with ⟨hc, rfl⟩ | ⟨hc, rfl | rfl | rfl | rfl⟩ <;>
    simp [Bcu.ErrMatchesCfgd, Bcu.IdxWhenErr, hc, ErrCode.code]

theorem Bcu.BlockEnds.inv {v result : Bcu c} {k : BitVec c.iw} {n : BitVec c.lw} {ok : Prop}
    (h : u.BlockEnds k n ok result v) (hu : u.Inv) (hresult : u.Admits n → ok → result.Inv) : v.Inv := by
  cases h with
  | refused => exact hu
  | raised e _ he => exact Bcu.inv_raise hu he k
  | completed admits hok => exact hresult admits hok

/-- A completed PACK writes RES_INT and DONE, of which the invariants do not speak. -/
theorem Bcu.inv_pack (h : u.Inv) (k : BitVec c.iw) (n : BitVec c.lw) (d : BitVec (8 * c.bmax)) :
    (u.pack k n d).Inv :=
  (u.pack_ends k n d).inv h fun _ _ => h

/-- A completed UNPACK writes a width of at most BSZ and lanes that are 0 from that width on (R121): BSZ is at most BMAX,
so UNPACKER runs inside its domain. -/
theorem Bcu.inv_unpack (h : u.Inv) (k : BitVec c.iw) (w : BitVec c.lw) (m : BitVec c.pw) :
    (u.unpack k w m).Inv := by
  refine (u.unpack_ends k w m).inv h fun ⟨_, hc, hpos, hle⟩ ⟨_, hl⟩ => ?_
  obtain ⟨⟨hbitlen, hbsz⟩, hcfgd, herr, hidx, -, -⟩ := h
  have hw : w.toNat ≤ c.bmax := hle.trans (hbsz ▸ bszOf_le_bmax u.p)
  have hfits : m.toNat < 2 ^ (8 * w.toNat) := by
    rwa [(unpacker_errs m u.p hpos hw).2, lenErr_eq_false] at hl
  refine ⟨⟨hbitlen, hbsz⟩, hcfgd, herr, hidx, ⟨fun _ => hle, fun hf => Bool.noConfusion (hc.symm.trans hf)⟩,
    fun i hi hwi => ?_⟩
  change lane (unpacker c m w.toNat u.p).q i = 0
  rw [unpacker_q m u.p hpos hw hfits, lane_unpackerLanes _ _ hi, if_neg (Nat.not_lt.2 hwi)]

end Sys2Proof.Machine
end

section
/-! SUPPORT. From the operations on the registers to those of the machine, and from these to every clock edge. -/

namespace Sys2Proof.Machine

/-- What NOP, CFG, PACK and UNPACK keep of the registers, every operation keeps. -/
theorem exec_keeps {P : ∀ {c : Params}, Bcu c → Prop}
    (hnop : ∀ {c : Params} {u : Bcu c}, P u → P u.nop)
    (hcfg : ∀ {c : Params} (p : BitVec c.pw), P (Bcu.configure c p))
    (hpack : ∀ {c : Params} {u : Bcu c}, P u → ∀ k n d, P (u.pack k n d))
    (hunpack : ∀ {c : Params} {u : Bcu c}, P u → ∀ k w m, P (u.unpack k w m))
    {s t : State} {i : Instr} (hs : P s.bcu) (h : exec i s = .next t) : P t.bcu := by
  cases i <;> obtain rfl := Host.Outcome.next.inj h
  case nop => exact hnop hs
  case cfg => exact hcfg _
  case pack => exact hpack hs _ _ _
  case unpack => exact hunpack hs _ _ _

/-- What holds of the reset registers and every operation keeps, every clock edge keeps. -/
theorem step_keeps {P : ∀ {c : Params}, Bcu c → Prop} (hreset : ∀ c, P (Bcu.reset c))
    (hexec : ∀ {s t : State} {i : Instr}, P s.bcu → exec i s = .next t → P t.bcu)
    {s t : State} (hs : P s.bcu) (h : step s = .next t) : P t.bcu := by
  rcases step_cases h with ⟨-, rfl⟩ | ⟨-, hrun⟩
  · exact hreset _
  · exact hexec (s := s.sample.2) hs hrun

theorem exec_keeps_inv {s t : State} {i : Instr} : s.bcu.Inv → exec i s = .next t → t.bcu.Inv :=
  exec_keeps (P := Bcu.Inv) id Bcu.inv_configure Bcu.inv_pack Bcu.inv_unpack

theorem step_keeps_inv {s t : State} : s.bcu.Inv → step s = .next t → t.bcu.Inv :=
  step_keeps (P := Bcu.Inv) Bcu.inv_reset exec_keeps_inv

theorem Bcu.legalErr_configure {c : Params} (p : BitVec c.pw) : (Bcu.configure c p).LegalErr := by
  cases hb : cfgErr (bszOf p.toNat) <;> simp [Bcu.LegalErr, hb]

theorem exec_keeps_legalErr {s t : State} {i : Instr} : s.bcu.LegalErr → exec i s = .next t → t.bcu.LegalErr :=
  exec_keeps (P := Bcu.LegalErr) id Bcu.legalErr_configure
    (fun h k n d => (Bcu.pack_ends _ k n d).legalErr h rfl)
    (fun h k w m => (Bcu.unpack_ends _ k w m).legalErr h rfl)

/-- CFG leaves DONE 1 exactly if it does not raise CONFIG. -/
theorem Bcu.configure_done_iff {c : Params} (p : BitVec c.pw) :
    (Bcu.configure c p).done = true ↔ (Bcu.configure c p).err = ErrCode.none.code := by
  cases hb : cfgErr (bszOf p.toNat) <;> simp [hb]

theorem exec_done_iff {s t : State} {i : Instr} (h : exec i s = .next t) :
    t.bcu.done = true ↔ i ≠ .nop ∧ t.bcu.err = ErrCode.none.code := by
  cases i <;> obtain rfl := Host.Outcome.next.inj h
  case nop => simp
  case cfg p => simpa using Bcu.configure_done_iff (intOperand s.cfg p)
  case pack => simpa using (Bcu.pack_ends _ _ _ _).done_iff rfl rfl
  case unpack => simpa using (Bcu.unpack_ends _ _ _ _).done_iff rfl rfl

end Sys2Proof.Machine
end

section
/-! PROOFS. The registers (10_state.md): their invariants, what each operation leaves unchanged, ERR, DONE
and the ports. -/

namespace Sys2Proof.Proofs

open Sys2Proof Sys2Proof.Machine

/-- Settles O34: reset and CFG establish the invariants, and every other operation keeps them (`exec_keeps_inv`); the one
that needs an argument is a completed UNPACK (`Bcu.inv_unpack`). -/
theorem stepKeepsInvariants : Obligations.StepKeepsInvariants :=
  ⟨fun _ _ => step_keeps_inv, fun _ _ _ => exec_keeps_inv⟩

/-- Settles O26: a block operation either completes, with DONE 1, or writes ERR, ERR_IDX and DONE at most
(`Bcu.BlockEnds.frame`). -/
theorem operationFrames : Obligations.OperationFrames := by
  intro s
  refine ⟨⟨_, exec_nop s, rfl, rfl, rfl, rfl, rfl, rfl, rfl, rfl, rfl⟩,
    fun k n lanes => ⟨_, exec_pack k n lanes s, ?_⟩, fun k w m => ⟨_, exec_unpack k w m s, ?_⟩, fun p => ⟨_, exec_cfg p s⟩⟩
  · rcases (s.bcu.pack_ends (idxOperand s.cfg k) (lenOperand s.cfg n) (bytesOperand s.cfg lanes)).frame with
      h | ⟨e, idx, h⟩ <;> simp [h]
  · rcases (s.bcu.unpack_ends (idxOperand s.cfg k) (lenOperand s.cfg w) (intOperand s.cfg m)).frame with
      h | ⟨e, idx, h⟩ <;> simp [h]

/-- Settles O35: an operation keeps ERR or writes one of the codes of R26. -/
theorem stepKeepsErrLegal : Obligations.StepKeepsErrLegal :=
  fun _ _ => step_keeps (P := Bcu.LegalErr) (fun _ => .inl rfl) exec_keeps_legalErr

/-- Settles O38: an edge resets DONE, or its operation sets it as `exec_done_iff` says. -/
theorem doneMeansCompleted : Obligations.DoneMeansCompleted := by
  intro s t h
  rcases step_cases h with ⟨hrst, rfl⟩ | ⟨hrst, hrun⟩
  · exact ⟨fun _ => rfl, fun hlow => absurd hrst (by simp [hlow])⟩
  · exact ⟨fun hhigh => absurd hrst (by simp [hhigh]), fun _ => exec_done_iff hrun⟩

/-- Settles O39: each port is defined as its register. -/
theorem portsDriveRegisters : Obligations.PortsDriveRegisters := fun _ _ => rfl

/-- Settles O40: each operation's registers are a function of the registers and its operands. -/
theorem registersAreTheWholeState : Obligations.RegistersAreTheWholeState := by
  intro c i u
  cases i with
  | nop => exact ⟨u.nop, fun _ _ => rfl⟩
  | cfg p => exact ⟨Bcu.configure c (intOperand c p), fun _ _ => rfl⟩
  | pack k n lanes => exact ⟨u.pack (idxOperand c k) (lenOperand c n) (bytesOperand c lanes), fun _ _ => rfl⟩
  | unpack k w m => exact ⟨u.unpack (idxOperand c k) (lenOperand c w) (intOperand c m), fun _ _ => rfl⟩

end Sys2Proof.Proofs
end

section
/-! SUPPORT and PROOFS. The operations are idempotent (20_memory.md). -/

namespace Sys2Proof.Machine

variable {c : Params} {u v result : Bcu c} {k : BitVec c.iw} {n : BitVec c.lw}

/-- No error a block operation raises is NONE, so the next block operation is refused (R174). -/
theorem Bcu.BlockError.raise_err_ne {e : ErrCode} (h : u.BlockError e) (k : BitVec c.iw) :
    (u.raise e k).err ≠ ErrCode.none.code := by
  rcases h with ⟨-, rfl⟩ | ⟨-, rfl | rfl | rfl | rfl⟩ <;> simp

/-- A block operation that left `v` leaves it again: after a refusal or an error it is refused and DONE is 0 already, so
only its completion is in question. -/
theorem Bcu.BlockEnds.again {ok : Prop} {op : Bcu c → Bcu c} (h : u.BlockEnds k n ok result v)
    (hrefuse : ∀ w : Bcu c, w.err ≠ ErrCode.none.code → op w = w.refuse)
    (hresult : u.Admits n → ok → op result = result) : op v = v := by
  cases h with
  | refused latched => exact hrefuse u.refuse latched
  | raised e _ he => exact hrefuse (u.raise e k) (he.raise_err_ne k)
  | completed admits hok => exact hresult admits hok

theorem Bcu.pack_of_admits {d : BitVec (8 * c.bmax)} (h : u.Admits n)
    (hr : (packer c d n.toNat u.p).rangeErr = false) (k : BitVec c.iw) :
    u.pack k n d = { u with resInt := (packer c d n.toNat u.p).v, done := true } := by
  simp [Bcu.pack, Bcu.block_of_admits h, hr]

theorem Bcu.unpack_of_admits {m : BitVec c.pw} (h : u.Admits n)
    (hr : (unpacker c m n.toNat u.p).rangeErr = false) (hl : (unpacker c m n.toNat u.p).lenErr = false)
    (k : BitVec c.iw) :
    u.unpack k n m = { u with resBytes := (unpacker c m n.toNat u.p).q, resLen := n, done := true } := by
  simp [Bcu.unpack, Bcu.block_of_admits h, hr, hl]

/-- A completed PACK writes none of the registers that it reads, so it completes again with the same value (R105). -/
theorem Bcu.pack_pack (u : Bcu c) (k : BitVec c.iw) (n : BitVec c.lw) (d : BitVec (8 * c.bmax)) :
    (u.pack k n d).pack k n d = u.pack k n d :=
  (u.pack_ends k n d).again (op := fun w => w.pack k n d) (fun _ he => Bcu.block_of_err he k n _)
    fun admits hr => Bcu.pack_of_admits (u := { u with resInt := _, done := true }) admits hr k

/-- A completed UNPACK writes none of the registers that it reads, so it completes again with the same lanes (R125). -/
theorem Bcu.unpack_unpack (u : Bcu c) (k : BitVec c.iw) (w : BitVec c.lw) (m : BitVec c.pw) :
    (u.unpack k w m).unpack k w m = u.unpack k w m :=
  (u.unpack_ends k w m).again (op := fun x => x.unpack k w m) (fun _ he => Bcu.block_of_err he k w _)
    fun admits ⟨hr, hl⟩ =>
      Bcu.unpack_of_admits (u := { u with resBytes := _, resLen := w, done := true }) admits hr hl k

end Sys2Proof.Machine

namespace Sys2Proof.Proofs

open Sys2Proof Sys2Proof.Machine

/-- Settles O29: NOP and CFG read nothing they change, and a block operation is idempotent in each way it can end
(`Bcu.pack_pack`, `Bcu.unpack_unpack`). -/
theorem operationsAreIdempotent : Obligations.OperationsAreIdempotent := by
  intro s i u h
  cases i <;> rw [← Host.Outcome.next.inj h]
  case nop => rfl
  case cfg => rfl
  case pack => rw [exec_pack, State.withBcu_bcu, Bcu.pack_pack]
  case unpack => rw [exec_unpack, State.withBcu_bcu, Bcu.unpack_unpack]

end Sys2Proof.Proofs
end

section
/-! SUPPORT. The request word (30_encoding.md): where its fields stand, which operation `op` selects, and the operations
whose operands fit. -/

namespace Sys2Proof

variable {c : Params}

/-! ## The fields of a request word (R61) -/

/-- A field of a word is a quotient and a remainder by powers of two. -/
theorem extractLsb'_toNat_eq_div_mod {width : Nat} (w : BitVec width) (start len : Nat) :
    (w.extractLsb' start len).toNat = w.toNat / 2 ^ start % 2 ^ len := by
  rw [BitVec.extractLsb'_toNat, Nat.shiftRight_eq_div_pow]

/-- The fields follow each other without a gap from bit 0 to bit RW - 1, so together they are the word. -/
@[simp] theorem Request.toWord_ofWord (w : BitVec c.rw) : (Request.ofWord w).toWord = w := by
  unfold Request.toWord Request.ofWord
  rw [BitVec.extractLsb'_append_extractLsb'_eq_extractLsb' (by omega),
    BitVec.extractLsb'_append_extractLsb'_eq_extractLsb' (by omega),
    BitVec.extractLsb'_append_extractLsb'_eq_extractLsb' (by omega),
    BitVec.extractLsb'_append_extractLsb'_eq_extractLsb' (by omega), BitVec.extractLsb'_eq_self]

theorem Request.ofWord_op_toNat (w : BitVec c.rw) : (Request.ofWord w).op.toNat = w.toNat % 4 := by
  rw [Request.ofWord, extractLsb'_toNat_eq_div_mod]
  norm_num

theorem Request.ofWord_op_eq_iff (w : BitVec c.rw) (o : BitVec 2) :
    (Request.ofWord w).op = o ↔ w.toNat % 4 = o.toNat := by
  rw [BitVec.toNat_eq, Request.ofWord_op_toNat]

/-! ## The operation of a request (R63) -/

namespace Request

variable {r : Request c}

theorem instr_of_op_nop (h : r.op = 0b00#2) : r.instr = .nop := by simp [instr, h]

theorem instr_of_op_cfg (h : r.op = 0b01#2) : r.instr = .cfg r.argInt.toNat := by simp [instr, h]

theorem instr_of_op_pack (h : r.op = 0b10#2) :
    r.instr = .pack r.argIdx.toNat r.argLen.toNat (lanesOf c r.argBytes) := by simp [instr, h]

theorem instr_of_op_unpack (h : r.op = 0b11#2) :
    r.instr = .unpack r.argIdx.toNat r.argLen.toNat r.argInt.toNat := by simp [instr, h]

/-- The values of `op` that R63 assigns are all there are. -/
theorem op_cases (r : Request c) : r.op = 0b00#2 ∨ r.op = 0b01#2 ∨ r.op = 0b10#2 ∨ r.op = 0b11#2 := by
  have all_assigned : ∀ o : BitVec 2, o = 0b00#2 ∨ o = 0b01#2 ∨ o = 0b10#2 ∨ o = 0b11#2 := by decide
  exact all_assigned r.op

/-- Every request is well formed (R66): an operand is a field, and a field has its width. -/
theorem instr_wellFormed (r : Request c) : WellFormed c r.instr = true := by
  have hint := r.argInt.isLt
  have hlen := r.argLen.isLt
  have hidx := r.argIdx.isLt
  rcases r.op_cases with h | h | h | h
  · rw [instr_of_op_nop h]; rfl
  · simp [instr_of_op_cfg h, WellFormed, hint]
  · simp [instr_of_op_pack h, WellFormed, hlen, hidx]
  · simp [instr_of_op_unpack h, WellFormed, hint, hlen, hidx]

end Request

/-! ## The operations whose operands fit their fields (R60, R65) -/

theorem wellFormed_cfg_iff (p : Nat) : WellFormed c (.cfg p) = true ↔ p < 2 ^ c.pw := by simp [WellFormed]

theorem wellFormed_pack_iff (k n : Nat) (lanes : List Byte) :
    WellFormed c (.pack k n lanes) = true ↔ k < 2 ^ c.iw ∧ n < 2 ^ c.lw ∧ lanes.length = c.bmax := by
  simp [WellFormed, and_assoc]

theorem wellFormed_unpack_iff (k w m : Nat) :
    WellFormed c (.unpack k w m) = true ↔ k < 2 ^ c.iw ∧ w < 2 ^ c.lw ∧ m < 2 ^ c.pw := by
  simp [WellFormed, and_assoc]

/-- Fields of their widths lose nothing of operands that fit, so the request of an operation stands for it. -/
theorem request_instr {i : Instr} (h : WellFormed c i = true) : (request c i).instr = i := by
  cases i with
  | nop => exact Request.instr_of_op_nop rfl
  | cfg p =>
    rw [wellFormed_cfg_iff] at h
    rw [Request.instr_of_op_cfg rfl]
    simp [request, Nat.mod_eq_of_lt h]
  | pack k n lanes =>
    obtain ⟨hk, hn, hlanes⟩ := (wellFormed_pack_iff k n lanes).1 h
    rw [Request.instr_of_op_pack rfl]
    simp [request, Nat.mod_eq_of_lt hk, Nat.mod_eq_of_lt hn, lanesOf_busOf c lanes hlanes]
  | unpack k w m =>
    obtain ⟨hk, hw, hm⟩ := (wellFormed_unpack_iff k w m).1 h
    rw [Request.instr_of_op_unpack rfl]
    simp [request, Nat.mod_eq_of_lt hk, Nat.mod_eq_of_lt hw, Nat.mod_eq_of_lt hm]

/-- The decoder inverts the encoder on well-formed operations. -/
theorem decode_encode {i : Instr} (h : WellFormed c i = true) : decode c (encode c i) = i := by
  rw [decode_encode_request, request_instr h]

end Sys2Proof
end

section
/-! SUPPORT. PACK reads the first `n` of its byte lanes and no other (R64, R101). -/

namespace Sys2Proof.Machine

variable {c : Params}

/-- Buses with the same lanes are the same bus. -/
theorem bus_ext {d d' : BitVec (8 * c.bmax)} (h : ∀ i < c.bmax, lane d i = lane d' i) : d = d' := by
  have same_lanes : lanesOf c d = lanesOf c d' :=
    List.map_congr_left fun i hi => h i (List.mem_range.1 hi)
  rw [← busOf_lanesOf c d, same_lanes, busOf_lanesOf]

/-- PACKER depends on the first `n` lanes alone: inside its domain it reads no other, and outside it the `n` lanes are
all of the bus. -/
theorem packer_congr {d d' : BitVec (8 * c.bmax)} {n : Nat} (h : ∀ i < n, lane d i = lane d' i) (p : BitVec c.pw) :
    packer c d n p = packer c d' n p := by
  rcases le_or_gt n c.bmax with hn | hn
  · rw [packer_of_le d p hn, packer_of_le d' p hn, be_congr h]
  · rw [bus_ext fun i hi => h i (hi.trans hn)]

theorem Bcu.pack_congr {d d' : BitVec (8 * c.bmax)} {n : BitVec c.lw} (h : ∀ i < n.toNat, lane d i = lane d' i)
    (u : Bcu c) (k : BitVec c.iw) : u.pack k n d = u.pack k n d' := by
  rw [Bcu.pack, Bcu.pack, packer_congr h]

/-- On a request's fields PACK takes the lanes from the bus as they are. -/
theorem exec_pack_lanesOf (s : State) (k n : Nat) (d : BitVec (8 * s.cfg.bmax)) :
    exec (.pack k n (lanesOf s.cfg d)) s =
      .next (s.withBcu (s.bcu.pack (idxOperand s.cfg k) (lenOperand s.cfg n) d)) := by
  rw [exec_pack, bytesOperand, busOf_lanesOf]

@[simp] theorem lenOperand_toNat (n : BitVec c.lw) : lenOperand c n.toNat = n := by simp [lenOperand]

end Sys2Proof.Machine
end

section
/-! SUPPORT. What the assembler accepts (R68), one lemma for each operation. -/

namespace Sys2Proof.Machine

variable {c : Params} {i : Instr}

theorem assemble_nop_eq_some : assemble c .nop = some i ↔ i = .nop := by simp [assemble, eq_comm]

theorem assemble_cfg_eq_some (p : Nat) : assemble c (.cfg p) = some i ↔ p < 2 ^ c.pw ∧ i = .cfg p := by
  simp [assemble, eq_comm]

/-- The lanes of an accepted PACK: the bytes it lists, and 0 where it lists none. -/
def listedLanes (c : Params) (bytes : List Nat) : List Byte :=
  (List.range c.bmax).map fun j => BitVec.ofNat 8 (bytes.getD j 0)

@[simp] theorem listedLanes_length (bytes : List Nat) : (listedLanes c bytes).length = c.bmax := by
  simp [listedLanes]

theorem assemble_pack_eq_some (k n : Nat) (bytes : List Nat) :
    assemble c (.pack k n bytes) = some i ↔
      (bytes.length = n ∧ 1 ≤ n ∧ n ≤ c.bmax ∧ k < 2 ^ c.iw ∧ ∀ b ∈ bytes, b < 256) ∧
        i = .pack k n (listedLanes c bytes) := by
  simp [assemble, listedLanes, @eq_comm _ i]

theorem assemble_unpack_eq_some (k w m : Nat) :
    assemble c (.unpack k w m) = some i ↔
      (k < 2 ^ c.iw ∧ w < 2 ^ c.lw ∧ m < 2 ^ c.pw) ∧ i = .unpack k w m := by
  simp [assemble, eq_comm]

/-- Lane `j` holds byte `j` of the list, which fits it, or 0 past the end of the list. -/
theorem listedLanes_getD_toNat {bytes : List Nat} (hbytes : ∀ b ∈ bytes, b < 256) {j : Nat} (hj : j < c.bmax) :
    ((listedLanes c bytes).getD j 0).toNat = bytes.getD j 0 := by
  have fits : bytes.getD j 0 < 256 := by
    rcases Nat.lt_or_ge j bytes.length with h | h
    · rw [List.getD_eq_getElem _ _ h]; exact hbytes _ (List.getElem_mem h)
    · rw [List.getD_eq_default _ _ h]; decide
  have lane_eq : (listedLanes c bytes).getD j 0 = BitVec.ofNat 8 (bytes.getD j 0) := by simp [listedLanes, hj]
  rw [lane_eq, BitVec.toNat_ofNat, Nat.mod_eq_of_lt fits]

theorem wellFormed_of_assemble {l : AsmLine} (h : assemble c l = some i) : WellFormed c i = true := by
  cases l with
  | nop =>
    obtain rfl := assemble_nop_eq_some.1 h
    rfl
  | cfg p =>
    obtain ⟨hp, rfl⟩ := (assemble_cfg_eq_some p).1 h
    exact (wellFormed_cfg_iff p).2 hp
  | pack k n bytes =>
    obtain ⟨⟨-, -, hn, hk, -⟩, rfl⟩ := (assemble_pack_eq_some k n bytes).1 h
    exact (wellFormed_pack_iff k n _).2 ⟨hk, hn.trans_lt (lt_two_pow_bitlen c.bmax), listedLanes_length bytes⟩
  | unpack k w m =>
    obtain ⟨hfits, rfl⟩ := (assemble_unpack_eq_some k w m).1 h
    exact (wellFormed_unpack_iff k w m).2 hfits

end Sys2Proof.Machine
end

section
/-! SUPPORT. A clock edge always answers, and the word at the head of the host's list is the one it runs (R60, R194). -/

namespace Sys2Proof.Machine

/-- With no procedure running the harness presents the word at the head of the host's list. -/
theorem Harness.cycle_of_present {c : Params} {h : Harness c} (u : Bcu c) {w : BitVec c.rw} {rest : List (Action c)}
    (hi : h.ctl = .idle) (ht : h.todo = .present w :: rest) : h.cycle u = (w, { h with todo := rest }) := by
  simp [Harness.cycle, Harness.readOutputs, hi, ht]

theorem step_of_present {s : State} {w : BitVec s.cfg.rw} {rest : List (Action s.cfg)} (hi : s.harness.ctl = .idle)
    (ht : s.harness.todo = .present w :: rest) (hr : s.rstNow = false) :
    step s = exec (decode s.cfg w) { s with rst := s.rst.tail, harness := { s.harness with todo := rest } } := by
  rw [step_of_request hr, State.sample, Harness.cycle_of_present s.bcu hi ht]

/-- Each clock edge answers the sampled state with other registers. -/
theorem step_total (s : State) : ∃ u : Bcu s.cfg, step s = .next (s.sample.2.withBcu u) := by
  cases hr : s.rstNow with
  | true => exact ⟨_, step_of_rst hr⟩
  | false =>
    obtain ⟨u, hu⟩ := exec_cases (decode s.cfg s.sample.1) s.sample.2
    exact ⟨u, (step_of_request hr).trans hu⟩

end Sys2Proof.Machine
end

section
/-! PROOFS. The request word, the assembler, and the request of a clock edge (30_encoding.md). -/

namespace Sys2Proof.Proofs

open Sys2Proof Sys2Proof.Machine

/-- Settles O12: the word carries its five fields (`Request.ofWord_toWord`), and each field its operand
(`request_instr`). -/
theorem decodeEncodeAgree : Obligations.DecodeEncodeAgree := fun _ _ => decode_encode

/-- Settles O13: the positions are those of `Request.ofWord`, and the fields leave no gap (`Request.toWord_ofWord`). -/
theorem requestWordLayout : Obligations.RequestWordLayout := by
  refine fun c => ⟨by unfold Params.rw; omega, rfl, fun w => ⟨?_, ?_, ?_, ?_, ?_, Request.toWord_ofWord w⟩⟩
  · exact Request.ofWord_op_toNat w
  · exact extractLsb'_toNat_eq_div_mod w _ _
  · exact extractLsb'_toNat_eq_div_mod w _ _
  · exact extractLsb'_toNat_eq_div_mod w _ _
  · exact extractLsb'_toNat_eq_div_mod w _ _

/-- Settles O14: the low two bits of the word are `op`, and each operand is a field of its width. -/
theorem everyOpSelectsItsOperation : Obligations.EveryOpSelectsItsOperation := by
  refine fun c w => ⟨fun h => ?_, fun h => ?_, fun h => ?_, fun h => ?_, Request.instr_wellFormed _⟩
  · exact Request.instr_of_op_nop ((Request.ofWord_op_eq_iff w _).2 h)
  · exact ⟨_, Request.instr_of_op_cfg ((Request.ofWord_op_eq_iff w _).2 h)⟩
  · exact ⟨_, _, _, Request.instr_of_op_pack ((Request.ofWord_op_eq_iff w _).2 h)⟩
  · exact ⟨_, _, _, Request.instr_of_op_unpack ((Request.ofWord_op_eq_iff w _).2 h)⟩

/-- Settles O15: an ignored field is not in the operation at all, but for the lanes of PACK from `arg_len` on, which
PACKER does not read (`Bcu.pack_congr`). -/
theorem ignoredFieldsHaveNoEffect : Obligations.IgnoredFieldsHaveNoEffect := by
  refine fun s r r' hop => ⟨fun h => ?_, fun h hint => ?_, fun h hidx hlen hlanes => ?_, fun h hidx hlen hint => ?_⟩
  · rw [Request.instr_of_op_nop h, Request.instr_of_op_nop (hop.symm.trans h)]
  · rw [Request.instr_of_op_cfg h, Request.instr_of_op_cfg (hop.symm.trans h), hint]
  · rw [Request.instr_of_op_pack h, Request.instr_of_op_pack (hop.symm.trans h), exec_pack_lanesOf, exec_pack_lanesOf,
      ← hidx, ← hlen, lenOperand_toNat, Bcu.pack_congr hlanes]
  · rw [Request.instr_of_op_unpack h, Request.instr_of_op_unpack (hop.symm.trans h), hidx, hlen, hint]

/-- Settles O18: BMAX fits the count field, so an accepted PACK is well formed, and its lanes are `listedLanes`. -/
theorem assemblerAcceptsOnlyWhatFits : Obligations.AssemblerAcceptsOnlyWhatFits := by
  refine fun c => ⟨fun _ _ => wellFormed_of_assemble, fun k n bytes hbad => ?_, fun k n bytes i h => ?_⟩
  · refine Option.eq_none_iff_forall_ne_some.2 fun i h => ?_
    obtain ⟨⟨hlength, hpos, hle, -⟩, -⟩ := (assemble_pack_eq_some k n bytes).1 h
    omega
  · obtain ⟨⟨rfl, -, -, -, hbytes⟩, rfl⟩ := (assemble_pack_eq_some k n bytes).1 h
    refine ⟨_, rfl, fun j hj => ?_⟩
    rw [listedLanes_getD_toNat hbytes hj]
    split
    next => rfl
    next hend => exact List.getD_eq_default _ _ (Nat.le_of_not_lt hend)

/-- Settles O33: an edge with `rst` high resets the registers, and every operation answers a next state. -/
theorem stepAlwaysCompletes : Obligations.StepAlwaysCompletes := by
  intro s
  obtain ⟨u, hu⟩ := step_total s
  exact ⟨_, hu, rfl, rfl⟩

/-- Settles O16, by evaluating the assembler on the fourteen lines. -/
theorem requestWordsOfTheTable : Obligations.RequestWordsOfTheTable := by
  unfold Obligations.RequestWordsOfTheTable
  decide

/-- Settles O17, by evaluating the decoder on the four words. -/
theorem wordsDecodeToTheirOperations : Obligations.WordsDecodeToTheirOperations := by
  unfold Obligations.WordsDecodeToTheirOperations
  decide

/-- Settles O32: a word placed with `withFetchWord` is at the head of the host's list, and `rst` is low. -/
theorem stepRunsPresentedRequest : Obligations.StepRunsPresentedRequest :=
  ⟨fun _ _ _ => step_of_present, fun s nbits w => step_of_present (s := s.withFetchWord nbits w) rfl rfl rfl⟩

end Sys2Proof.Proofs
end

section
/-! SUPPORT. The block size of a modulus, by its powers of two (R81, R83, R84), and why a packed value is below the
modulus (R102, R103). -/

namespace Sys2Proof

theorem lt_bitlen_iff (x k : Nat) : k < bitlen x ↔ 2 ^ k ≤ x := by
  rw [← Nat.not_le, bitlen_le_iff, Nat.not_lt]

/-- `PW >= 9` leaves room for a lane (R6, R7). -/
theorem Params.one_le_bmax (c : Params) : 1 ≤ c.bmax := by
  have hpw := c.pw_ge
  rw [Params.bmax]; omega

/-- The byte lanes together are narrower than the modulus register (R7). -/
theorem Params.lanes_lt_pw (c : Params) : 8 * c.bmax < c.pw := by
  have hpw := c.pw_ge
  rw [Params.bmax]; omega

end Sys2Proof

namespace Sys2Proof.Machine

variable {c : Params}

/-! ## The bands of the block size -/

/-- A block size of at least `b` is a modulus of more than `8 * b` bits: every comparison with it is one with a power. -/
theorem le_bszOf_iff {b : Nat} (hb : 1 ≤ b) (p : Nat) : b ≤ bszOf p ↔ 2 ^ (8 * b) ≤ p := by
  rw [← lt_bitlen_iff, bszOf]; omega

theorem bszOf_eq_zero_iff (p : Nat) : bszOf p = 0 ↔ p < 256 := by
  have one_le_iff : 1 ≤ bszOf p ↔ 256 ≤ p := le_bszOf_iff le_rfl p
  omega

theorem bszOf_eq_iff {b : Nat} (hb : 1 ≤ b) (p : Nat) : bszOf p = b ↔ 2 ^ (8 * b) ≤ p ∧ p < 2 ^ (8 * b + 8) := by
  have above : b + 1 ≤ bszOf p ↔ 2 ^ (8 * b + 8) ≤ p := le_bszOf_iff (Nat.succ_pos b) p
  rw [← le_bszOf_iff hb, ← Nat.not_le, ← above]; omega

theorem two_pow_bszOf_le {p : Nat} (h : 256 ≤ p) : 2 ^ (8 * bszOf p) ≤ p := by
  have sized : 1 ≤ bszOf p := (le_bszOf_iff le_rfl p).2 h
  exact (le_bszOf_iff sized p).1 le_rfl

/-- BSC marks exactly the moduli without a block, those of fewer than nine bits (R81). -/
theorem bsc_cfgErr_eq_true (p : BitVec c.pw) : (bsc c p).cfgErr = true ↔ p.toNat < 256 := by
  rw [bsc_cfgErr, cfgErr_eq_true, bszOf_eq_zero_iff]

theorem bsc_cfgErr_eq_false (p : BitVec c.pw) : (bsc c p).cfgErr = false ↔ 256 ≤ p.toNat := by
  rw [← Bool.not_eq_true, bsc_cfgErr_eq_true, Nat.not_lt]

/-- The moduli from `2^(8*BMAX)` on have the largest block size (R84). -/
theorem bszOf_eq_bmax {p : BitVec c.pw} (h : 2 ^ (8 * c.bmax) ≤ p.toNat) : bszOf p.toNat = c.bmax :=
  (bszOf_le_bmax p).antisymm ((le_bszOf_iff c.one_le_bmax _).2 h)

/-- What BSC gives in the band of block size `b`, one row of the table of R84. -/
theorem bsc_of_band {b : Nat} (hb : 1 ≤ b) {p : BitVec c.pw} (hlow : 2 ^ (8 * b) ≤ p.toNat)
    (hhigh : p.toNat < 2 ^ (8 * b + 8)) :
    8 * b + 1 ≤ Sys2Proof.bitlen p.toNat ∧ Sys2Proof.bitlen p.toNat ≤ 8 * b + 8 ∧
      bszOf p.toNat = b ∧ (bsc c p).cfgErr = false := by
  have hbsz : bszOf p.toNat = b := (bszOf_eq_iff hb _).2 ⟨hlow, hhigh⟩
  refine ⟨(lt_bitlen_iff _ _).2 hlow, (bitlen_le_iff _ _).2 hhigh, hbsz, ?_⟩
  rwa [bsc_cfgErr, hbsz, cfgErr_eq_false]

/-! ## Values below the modulus -/

/-- The value of `n` bytes is below the first number that needs more, by induction on the number of lanes. -/
theorem be_lt_two_pow (d : Nat → Byte) (n : Nat) : be d n < 2 ^ (8 * n) := by
  rw [← pow_256]
  induction n with
  | zero => simp
  | succ n ih =>
    have last_lane : (d n).toNat < 256 := (d n).isLt
    rw [be_succ, pow_succ]; omega

/-- A block of at most B bytes has a value below the modulus that B was derived from (R83). -/
theorem be_lt_of_le_bszOf (d : Nat → Byte) {n p : Nat} (hp : 256 ≤ p) (hn : n ≤ bszOf p) : be d n < p :=
  calc be d n < 2 ^ (8 * n) := be_lt_two_pow d n
    _ ≤ 2 ^ (8 * bszOf p) := Nat.pow_le_pow_right Nat.two_pos (Nat.mul_le_mul_left 8 hn)
    _ ≤ p := two_pow_bszOf_le hp

/-- The range check of PACKER does not fire where the block size is that of its modulus (R83, R102). -/
theorem packer_rangeErr_of_le_bszOf (d : BitVec (8 * c.bmax)) {n : Nat} {p : BitVec c.pw} (hp : 256 ≤ p.toNat)
    (hn : n ≤ bszOf p.toNat) : (packer c d n p).rangeErr = false := by
  rw [packer_of_le d p (hn.trans (bszOf_le_bmax p)), rangeErr_eq_false]
  exact be_lt_of_le_bszOf (lane d) hp hn

/-! ## The outcomes of CFG (R85) -/

theorem Bcu.configure_of_lt {p : BitVec c.pw} (h : p.toNat < 256) :
    (Bcu.configure c p).cfgd = false ∧ (Bcu.configure c p).err = ErrCode.config.code ∧
      (Bcu.configure c p).done = false := by
  rw [Bcu.configure_cfgd, Bcu.configure_err, Bcu.configure_done, (bsc_cfgErr_eq_true p).2 h]
  exact ⟨rfl, rfl, rfl⟩

theorem Bcu.configure_of_ge {p : BitVec c.pw} (h : 256 ≤ p.toNat) :
    (Bcu.configure c p).cfgd = true ∧ (Bcu.configure c p).err = ErrCode.none.code ∧
      (Bcu.configure c p).done = true := by
  rw [Bcu.configure_cfgd, Bcu.configure_err, Bcu.configure_done, (bsc_cfgErr_eq_false p).2 h]
  exact ⟨rfl, rfl, rfl⟩

/-- A modulus that fits its field reaches CFG as it is (R65). -/
theorem intOperand_toNat {x : Nat} (h : x < 2 ^ c.pw) : (intOperand c x).toNat = x := Nat.mod_eq_of_lt h

end Sys2Proof.Machine
end

section
/-! PROOFS. The block size calculator and the operations NOP and CFG (40_block_size_calculator.md). -/

namespace Sys2Proof.Proofs

open Sys2Proof Sys2Proof.Machine

/-- Settles O4: both outputs fit their widths (`bsc_bitlenO_toNat`, `bsc_bszO_toNat`), and at `p = 0` the saturating
subtraction leaves 0. -/
theorem bscComputesBlockSize : Obligations.BscComputesBlockSize := by
  refine fun c p => ⟨bsc_bitlenO_toNat p, bsc_bszO_toNat p, ?_, ?_⟩
  · rw [bsc_cfgErr, cfgErr_eq_true, Nat.lt_one_iff, bszOf]
  · rintro rfl
    exact ⟨BitVec.eq_of_toNat_eq (by simp), BitVec.eq_of_toNat_eq (by simp [bszOf]),
      (bsc_cfgErr_eq_true _).2 (by simp)⟩

/-- Settles O5: a block of one byte needs a modulus of nine bits (`bsc_cfgErr_eq_true`). -/
theorem configErrorExactlyBelow256 : Obligations.ConfigErrorExactlyBelow256 := fun _ p => bsc_cfgErr_eq_true p

/-- Settles O6: the band is `bszOf_eq_iff`, and `n` bytes stay below its lower end (`be_lt_two_pow`). -/
theorem blockSizeBand : Obligations.BlockSizeBand := by
  refine ⟨fun p b hb => bszOf_eq_iff hb p, fun p n d hp hn => ⟨be_lt_two_pow d n, ?_, two_pow_bszOf_le hp⟩,
    fun c p n d hp hn => packer_rangeErr_of_le_bszOf d hp hn⟩
  exact Nat.pow_le_pow_right Nat.two_pos (Nat.mul_le_mul_left 8 hn)

/-- Settles O7: BMAX lanes are narrower than a modulus, so the band of BMAX begins below `2^PW`; the rows with a block
are bands (`bsc_of_band`). -/
theorem largestBlockSize : Obligations.LargestBlockSize := by
  refine ⟨fun c p => ⟨bszOf_le_bmax p, bszOf_eq_bmax, fun hmax => bszOf_eq_bmax ?_⟩,
    fun p => ⟨fun h => ?_, fun ⟨hlow, hhigh⟩ => ?_, fun ⟨hlow, hhigh⟩ => ?_, fun ⟨hlow, hhigh⟩ => ?_,
      fun ⟨hlow, hhigh⟩ => ?_⟩⟩
  · rw [hmax]
    exact Nat.le_sub_one_of_lt (Nat.pow_lt_pow_right Nat.one_lt_two c.lanes_lt_pw)
  · have below : p.toNat < 256 := by omega
    exact ⟨by rw [h, bitlen_zero], (bszOf_eq_zero_iff _).2 below, (bsc_cfgErr_eq_true p).2 below⟩
  · have below : p.toNat < 256 := by omega
    exact ⟨(lt_bitlen_iff _ 0).2 hlow, (bitlen_le_iff _ 8).2 below, (bszOf_eq_zero_iff _).2 below,
      (bsc_cfgErr_eq_true p).2 below⟩
  · exact bsc_of_band (b := 1) (by omega) hlow (Nat.lt_succ_of_le hhigh)
  · exact bsc_of_band (b := 2) (by omega) hlow (Nat.lt_succ_of_le hhigh)
  · exact bsc_of_band (b := 3) (by omega) hlow (Nat.lt_succ_of_le hhigh)

/-- Settles O20: CFG writes what BSC computes of a modulus that its field holds whole, and the error of BSC decides
CFGD, ERR and DONE. -/
theorem cfgStartsRun : Obligations.CfgStartsRun := by
  intro s p hp
  have hfield : (intOperand s.cfg p).toNat = p := intOperand_toNat hp
  refine ⟨_, exec_cfg p s, hfield, ?_, ?_, rfl, rfl, rfl, rfl, fun h => ?_, fun h => ?_⟩
  · rw [Bcu.configure_bitlen, bsc_bitlenO_toNat, hfield]
  · rw [Bcu.configure_bsz, bsc_bszO_toNat, hfield, bszOf]
  · exact Bcu.configure_of_lt (hfield.symm ▸ h)
  · exact Bcu.configure_of_ge (hfield.symm ▸ h)

/-- Settles O19: NOP is defined as the write of DONE alone. -/
theorem nopClearsDoneOnly : Obligations.NopClearsDoneOnly := exec_nop

end Sys2Proof.Proofs
end

section
/-! SUPPORT. PACKER and UNPACKER on a block that fits (R100, R120), and the block operations that reach them. -/

namespace Sys2Proof.Machine

variable {c : Params} {u : Bcu c}

/-! ## The leaf functions inside their domains -/

/-- The value of at most BMAX lanes, a natural number without bound, loses nothing in PW bits (R101). -/
theorem packer_v_toNat (d : BitVec (8 * c.bmax)) {n : Nat} (p : BitVec c.pw) (hn : n ≤ c.bmax) :
    (packer c d n p).v.toNat = be (lane d) n := by
  have fits : be (lane d) n < 2 ^ c.pw :=
    calc be (lane d) n < 2 ^ (8 * n) := be_lt_two_pow _ n
      _ ≤ 2 ^ c.pw := Nat.pow_le_pow_right Nat.two_pos (by have := c.lanes_lt_pw; omega)
  rw [packer_of_le d p hn, BitVec.toNat_ofNat, Nat.mod_eq_of_lt fits]

theorem packer_rangeErr_eq_true (d : BitVec (8 * c.bmax)) {n : Nat} (p : BitVec c.pw) (hn : n ≤ c.bmax) :
    (packer c d n p).rangeErr = true ↔ p.toNat ≤ be (lane d) n := by
  rw [packer_of_le d p hn, rangeErr_eq_true]

theorem packer_rangeErr_eq_false (d : BitVec (8 * c.bmax)) {n : Nat} (p : BitVec c.pw) (hn : n ≤ c.bmax) :
    (packer c d n p).rangeErr = false ↔ be (lane d) n < p.toNat := by
  rw [packer_of_le d p hn, rangeErr_eq_false]

/-- The image of a value at the width it was packed from is the lanes that were packed: PACK drops no byte, leading
zeros included. -/
theorem byteBe_be (d : Nat → Byte) {n i : Nat} (hi : i < n) : byteBe (be d n) n i = d i := by
  induction n with
  | zero => exact absurd hi (Nat.not_lt_zero i)
  | succ n ih =>
    have last_lane : (d n).toNat < 256 := (d n).isLt
    rcases Nat.lt_succ_iff_lt_or_eq.1 hi with before | rfl
    · have front : be d (n + 1) / 256 = be d n := by rw [be_succ]; omega
      rw [byteBe_succ _ before, front, ih before]
    · have last : be d (i + 1) % 256 = (d i).toNat := by rw [be_succ]; omega
      refine BitVec.eq_of_toNat_eq ?_
      rw [byteBe_toNat, Nat.add_sub_cancel, Nat.sub_self, pow_zero, Nat.div_one, last]

/-! ## The operands of a well-formed operation (R65) -/

theorem lenOperand_toNat_of_lt {n : Nat} (h : n < 2 ^ c.lw) : (lenOperand c n).toNat = n := Nat.mod_eq_of_lt h

/-- The first `n` lanes have one value on the bus and in the operation. -/
theorem be_bytesOperand (lanes : List Byte) {n : Nat} (hn : n ≤ c.bmax) :
    be (lane (bytesOperand c lanes)) n = be (fun i => lanes.getD i 0) n :=
  be_congr fun _ hi => lane_busOf c lanes (hi.trans_le hn)

/-! ## The outcomes behind the checks of R173 -/

theorem Bcu.pack_of_rangeErr {n : BitVec c.lw} {d : BitVec (8 * c.bmax)} (h : u.Admits n)
    (hr : (packer c d n.toNat u.p).rangeErr = true) (k : BitVec c.iw) : u.pack k n d = u.raise .encRange k := by
  simp [Bcu.pack, Bcu.block_of_admits h, hr]

/-- PACK of `n` lanes with a value below the modulus completes with that value (R105). -/
theorem exec_pack_completes {s : State} {n : Nat} {lanes : List Byte} (h : s.bcu.Admits (lenOperand s.cfg n))
    (hn : n < 2 ^ s.cfg.lw) (hmax : n ≤ s.cfg.bmax) (hlt : be (fun i => lanes.getD i 0) n < s.bcu.p.toNat) (k : Nat) :
    ∃ v : BitVec s.cfg.pw, v.toNat = be (fun i => lanes.getD i 0) n ∧
      exec (.pack k n lanes) s = .next (s.withBcu { s.bcu with resInt := v, done := true }) := by
  have hlen : (lenOperand s.cfg n).toNat = n := lenOperand_toNat_of_lt hn
  rw [← be_bytesOperand lanes hmax] at hlt ⊢
  refine ⟨_, packer_v_toNat (bytesOperand s.cfg lanes) s.bcu.p hmax, ?_⟩
  rw [exec_pack, Bcu.pack_of_admits h, hlen]
  rwa [hlen, packer_rangeErr_eq_false _ _ hmax]

/-- UNPACK of an integer below the modulus that fits `w` bytes completes with its image (R125). -/
theorem exec_unpack_completes {s : State} {w m : Nat} (h : s.bcu.Admits (lenOperand s.cfg w)) (hw : w < 2 ^ s.cfg.lw)
    (hmax : w ≤ s.cfg.bmax) (hlt : m < s.bcu.p.toNat) (hfits : m < 2 ^ (8 * w)) (k : Nat) :
    exec (.unpack k w m) s = .next (s.withBcu
      { s.bcu with resBytes := unpackerLanes s.cfg m w, resLen := lenOperand s.cfg w, done := true }) := by
  have ⟨_, _, hpos, _⟩ := h
  have hlen : (lenOperand s.cfg w).toNat = w := lenOperand_toNat_of_lt hw
  have hint : (intOperand s.cfg m).toNat = m := intOperand_toNat (hlt.trans s.bcu.p.isLt)
  rw [hlen] at hpos
  obtain ⟨hrange, hlenErr⟩ := unpacker_errs (intOperand s.cfg m) s.bcu.p hpos hmax
  have image := unpacker_q (intOperand s.cfg m) s.bcu.p hpos hmax (hint.symm ▸ hfits)
  rw [hint] at hrange hlenErr image
  rw [exec_unpack, Bcu.unpack_of_admits h, hlen, image]
  · rwa [hlen, hrange, rangeErr_eq_false]
  · rwa [hlen, hlenErr, lenErr_eq_false]

end Sys2Proof.Machine
end

section
/-! SUPPORT. What the invariants of R33 say to a block operation of a configured run, and why such a run never latches
ENC_RANGE (R103). -/

namespace Sys2Proof.Machine

variable {c : Params} {u : Bcu c}

/-! ## The block of a configured run -/

theorem Bcu.bsz_eq_bszOf (h : u.Inv) : u.bsz.toNat = bszOf u.p.toNat := by
  obtain ⟨⟨-, hbsz⟩, -⟩ := h
  exact hbsz

theorem Bcu.bsz_le_bmax (h : u.Inv) : u.bsz.toNat ≤ c.bmax := Bcu.bsz_eq_bszOf h ▸ bszOf_le_bmax u.p

/-- A configured run has a block, so its modulus is at least 256 (R81). -/
theorem Bcu.modulus_ge_256 (h : u.Inv) (hc : u.cfgd = true) : 256 ≤ u.p.toNat := by
  obtain ⟨⟨-, hbsz⟩, hsized, -⟩ := h
  exact (le_bszOf_iff le_rfl _).1 (hbsz ▸ hsized.1 hc)

theorem Bcu.two_pow_bsz_le (h : u.Inv) (hc : u.cfgd = true) : 2 ^ (8 * u.bsz.toNat) ≤ u.p.toNat :=
  Bcu.bsz_eq_bszOf h ▸ two_pow_bszOf_le (Bcu.modulus_ge_256 h hc)

/-- At most BSZ lanes have a value below the modulus, whatever they hold (R103). -/
theorem Bcu.be_lt_modulus (h : u.Inv) (hc : u.cfgd = true) {n : Nat} (hn : n ≤ u.bsz.toNat) (d : Nat → Byte) :
    be d n < u.p.toNat :=
  be_lt_of_le_bszOf d (Bcu.modulus_ge_256 h hc) (Bcu.bsz_eq_bszOf h ▸ hn)

theorem Bcu.packer_rangeErr_of_le_bsz (h : u.Inv) (hc : u.cfgd = true) {n : Nat} (hn : n ≤ u.bsz.toNat)
    (d : BitVec (8 * c.bmax)) : (packer c d n u.p).rangeErr = false :=
  packer_rangeErr_of_le_bszOf d (Bcu.modulus_ge_256 h hc) (Bcu.bsz_eq_bszOf h ▸ hn)

/-! ## ENC_RANGE is never latched -/

/-- No ENC_RANGE in ERR, and an RES_INT below the modulus of a configured run (R32, R103). -/
def Bcu.PackedInRange (u : Bcu c) : Prop :=
  u.err ≠ ErrCode.encRange.code ∧ (u.cfgd = true → u.resInt.toNat < u.p.toNat)

theorem Bcu.packedInRange_reset (c : Params) : (Bcu.reset c).PackedInRange :=
  ⟨by simp [Bcu.reset, ErrCode.code], nofun⟩

/-- CFG clears RES_INT, and a modulus it accepts is above 0. -/
theorem Bcu.packedInRange_configure (p : BitVec c.pw) : (Bcu.configure c p).PackedInRange := by
  rcases Nat.lt_or_ge p.toNat 256 with hp | hp
  · obtain ⟨hcfgd, herr, -⟩ := Bcu.configure_of_lt hp
    exact ⟨by rw [herr]; decide, by rw [hcfgd]; nofun⟩
  · obtain ⟨-, herr, -⟩ := Bcu.configure_of_ge hp
    exact ⟨by rw [herr]; decide, fun _ => by simpa using Nat.lt_of_lt_of_le (by decide) hp⟩

theorem Bcu.packedInRange_raise (h : u.PackedInRange) {e : ErrCode} (he : e.code ≠ ErrCode.encRange.code)
    (k : BitVec c.iw) : (u.raise e k).PackedInRange := by
  obtain ⟨-, hres⟩ := h
  exact ⟨he, hres⟩

/-- PACK raises ENC_RANGE only past the count check, where the value is below the modulus; the same bound holds of the
RES_INT it writes. -/
theorem Bcu.packedInRange_pack (hinv : u.Inv) (h : u.PackedInRange) (k : BitVec c.iw) (n : BitVec c.lw)
    (d : BitVec (8 * c.bmax)) : (u.pack k n d).PackedInRange := by
  rcases u.pack_cases k n d with
    ⟨-, hp⟩ | ⟨-, -, hp⟩ | ⟨-, -, -, hp⟩ | ⟨⟨-, hc, -, hle⟩, hr, -⟩ | ⟨⟨-, hc, -, hle⟩, -, hp⟩
  · rw [hp]; exact h
  · rw [hp]; exact Bcu.packedInRange_raise h (by decide) k
  · rw [hp]; exact Bcu.packedInRange_raise h (by decide) k
  · exact absurd hr (by simp [Bcu.packer_rangeErr_of_le_bsz hinv hc hle d])
  · rw [hp]
    obtain ⟨herr, -⟩ := h
    refine ⟨herr, fun _ => ?_⟩
    change (packer c d n.toNat u.p).v.toNat < u.p.toNat
    rw [packer_v_toNat d u.p (hle.trans (Bcu.bsz_le_bmax hinv))]
    exact Bcu.be_lt_modulus hinv hc hle (lane d)

/-- UNPACK raises other errors, and writes neither RES_INT nor P. -/
theorem Bcu.packedInRange_unpack (h : u.PackedInRange) (k : BitVec c.iw) (w : BitVec c.lw) (m : BitVec c.pw) :
    (u.unpack k w m).PackedInRange := by
  rcases u.unpack_cases k w m with
    ⟨-, hp⟩ | ⟨-, -, hp⟩ | ⟨-, -, -, hp⟩ | ⟨-, -, hp⟩ | ⟨-, -, -, hp⟩ | ⟨-, -, -, hp⟩ <;> rw [hp]
  · exact h
  · exact Bcu.packedInRange_raise h (by decide) k
  · exact Bcu.packedInRange_raise h (by decide) k
  · exact Bcu.packedInRange_raise h (by decide) k
  · exact Bcu.packedInRange_raise h (by decide) k
  · exact h

/-- The range of RES_INT is kept together with the invariants that say BSZ is the block size of P. -/
theorem step_keeps_packedInRange {s t : State} :
    s.bcu.Inv ∧ s.bcu.PackedInRange → step s = .next t → t.bcu.Inv ∧ t.bcu.PackedInRange :=
  step_keeps (P := fun u => u.Inv ∧ u.PackedInRange) (fun c => ⟨Bcu.inv_reset c, Bcu.packedInRange_reset c⟩)
    (exec_keeps (P := fun u => u.Inv ∧ u.PackedInRange) id
      (fun p => ⟨Bcu.inv_configure p, Bcu.packedInRange_configure p⟩)
      (fun ⟨hinv, h⟩ k n d => ⟨Bcu.inv_pack hinv k n d, Bcu.packedInRange_pack hinv h k n d⟩)
      (fun ⟨hinv, h⟩ k w m => ⟨Bcu.inv_unpack hinv k w m, Bcu.packedInRange_unpack h k w m⟩))

end Sys2Proof.Machine
end

section
/-! PROOFS. The byte packer and the operation PACK (41_byte_packer.md). -/

namespace Sys2Proof.Proofs

open Sys2Proof Sys2Proof.Machine

/-- Settles O8: at most BMAX lanes fit PW bits (`packer_v_toNat`), and the comparison is one of naturals. -/
theorem packerComputesBigEndianValue : Obligations.PackerComputesBigEndianValue :=
  fun _ d _ p hn => ⟨packer_v_toNat d p hn, packer_rangeErr_eq_true d p hn⟩

/-- Settles O9: the chain of bounds is that of the widths `8 n`, `8 BMAX` and `PW - 1`, and `packer_congr` is the
independence of the other lanes. -/
theorem packedValueFits : Obligations.PackedValueFits := by
  refine fun c d d' n p hn => ⟨packer_v_toNat d p hn, be_lt_two_pow _ n, ?_, ?_, fun h => packer_congr h p⟩
  · exact Nat.pow_le_pow_right Nat.two_pos (Nat.mul_le_mul_left 8 hn)
  · exact Nat.pow_le_pow_right Nat.two_pos (Nat.le_sub_one_of_lt c.lanes_lt_pw)

/-- Settles O21: the checks end in their order (`Bcu.block_cases`), and past them PACKER's error decides. -/
theorem packFollowsItsRule : Obligations.PackFollowsItsRule := by
  intro s k n lanes hwf
  obtain ⟨-, hn, -⟩ := (wellFormed_pack_iff k n lanes).1 hwf
  have hlen : (lenOperand s.cfg n).toNat = n := lenOperand_toNat_of_lt hn
  refine ⟨fun he => ?_, fun he hc => ?_, fun he hc hcount => ?_, fun he hc hpos hle hmax => ?_⟩
  · rw [exec_pack, Bcu.pack, Bcu.block_of_err he]; rfl
  · rw [exec_pack, Bcu.pack, Bcu.block_of_unconfigured he hc]; rfl
  · rw [exec_pack, Bcu.pack, Bcu.block_of_count he hc (by omega)]; rfl
  · have admits : s.bcu.Admits (lenOperand s.cfg n) := ⟨he, hc, by omega, by omega⟩
    refine ⟨fun hge => ?_, fun hlt => exec_pack_completes admits hn hmax hlt k⟩
    rw [exec_pack, Bcu.pack_of_rangeErr admits]
    · rfl
    · rwa [hlen, packer_rangeErr_eq_true _ _ hmax, be_bytesOperand lanes hmax]

/-- Settles O22: BSZ is the block size of P, so at most BSZ lanes stay below P (`Bcu.be_lt_modulus`) and PACK passes
its range check. -/
theorem packNeverRaisesEncRange : Obligations.PackNeverRaisesEncRange := by
  intro s k n lanes hwf hinv hc hpos hle
  obtain ⟨-, hn, -⟩ := (wellFormed_pack_iff k n lanes).1 hwf
  have hlen : (lenOperand s.cfg n).toNat = n := lenOperand_toNat_of_lt hn
  refine ⟨fun d => ⟨Bcu.packer_rangeErr_of_le_bsz hinv hc hle d, be_lt_two_pow _ n⟩, ?_, Bcu.two_pow_bsz_le hinv hc,
    fun he => ?_⟩
  · exact Nat.pow_le_pow_right Nat.two_pos (Nat.mul_le_mul_left 8 hle)
  · exact exec_pack_completes ⟨he, hc, by omega, by omega⟩ hn (hle.trans (Bcu.bsz_le_bmax hinv))
      (Bcu.be_lt_modulus hinv hc hle _) k

/-- Settles O25: the packed value is below P and fits `n` bytes, so UNPACK completes too, and the image of a packed value
is the lanes it was packed from (`byteBe_be`). -/
theorem unpackInvertsPack : Obligations.UnpackInvertsPack := by
  intro s k n lanes hwf hinv he hc hpos hle
  obtain ⟨-, hn, -⟩ := (wellFormed_pack_iff k n lanes).1 hwf
  have hlen : (lenOperand s.cfg n).toNat = n := lenOperand_toNat_of_lt hn
  have hmax : n ≤ s.cfg.bmax := hle.trans (Bcu.bsz_le_bmax hinv)
  have admits : s.bcu.Admits (lenOperand s.cfg n) := ⟨he, hc, by omega, by omega⟩
  have below := Bcu.be_lt_modulus hinv hc hle fun i => lanes.getD i 0
  obtain ⟨v, hv, hpack⟩ := exec_pack_completes admits hn hmax below k
  have hunpack := exec_unpack_completes (s := s.withBcu { s.bcu with resInt := v, done := true }) admits hn hmax below
    (be_lt_two_pow _ n) k
  refine ⟨_, _, hpack, hv.symm ▸ hunpack, rfl, hlen, fun i hi => ?_⟩
  refine (lane_unpackerLanes _ n hi).trans ?_
  split
  next hin => rw [hv, byteBe_be (fun i => lanes.getD i 0) hin]
  next => rfl

/-- Settles O36: reset and CFG clear RES_INT, PACK writes a value below P and never raises ENC_RANGE
(`Bcu.packedInRange_pack`), and no other operation writes either. -/
theorem encRangeNeverLatched : Obligations.EncRangeNeverLatched :=
  fun _ _ hinv herr hres h => (step_keeps_packedInRange ⟨hinv, herr, hres⟩ h).2

end Sys2Proof.Proofs
end

section
/-! SUPPORT. UNPACKER's lanes as numbers and its image of 0 (R120, R123), and the errors that UNPACK raises behind the
checks of R173 (R125). -/

namespace Sys2Proof.Machine

variable {c : Params} {u : Bcu c}

/-! ## The lanes of UNPACKER -/

theorem lane_unpackerLanes_toNat (m w : Nat) {i : Nat} (hi : i < c.bmax) :
    (lane (unpackerLanes c m w) i).toNat = if i < w then m / 256 ^ (w - 1 - i) % 256 else 0 := by
  rw [lane_unpackerLanes m w hi]
  split
  · exact byteBe_toNat m w i
  · rfl

@[simp] theorem byteBe_zero (w i : Nat) : byteBe 0 w i = 0 := by simp [byteBe]

@[simp] theorem lane_zero {width : Nat} (i : Nat) : lane (0 : BitVec width) i = 0 := by simp [lane]

/-- The image of 0 is 0 in the lanes below the width as it is in those above. -/
theorem unpackerLanes_zero (c : Params) (w : Nat) : unpackerLanes c 0 w = 0 :=
  bus_ext fun i hi => by rw [lane_unpackerLanes 0 w hi, byteBe_zero, lane_zero, ite_self]

/-! ## The errors of UNPACK -/

theorem Bcu.unpack_of_rangeErr {w : BitVec c.lw} {m : BitVec c.pw} (h : u.Admits w)
    (hr : (unpacker c m w.toNat u.p).rangeErr = true) (k : BitVec c.iw) : u.unpack k w m = u.raise .decRange k := by
  simp [Bcu.unpack, Bcu.block_of_admits h, hr]

theorem Bcu.unpack_of_lenErr {w : BitVec c.lw} {m : BitVec c.pw} (h : u.Admits w)
    (hr : (unpacker c m w.toNat u.p).rangeErr = false) (hl : (unpacker c m w.toNat u.p).lenErr = true)
    (k : BitVec c.iw) : u.unpack k w m = u.raise .lenOvf k := by
  simp [Bcu.unpack, Bcu.block_of_admits h, hr, hl]

/-- UNPACKER sees the operands of a well-formed UNPACK whole, so its errors compare the operands themselves (R65,
R120). -/
theorem unpacker_errs_operands {w m : Nat} (hw : w < 2 ^ c.lw) (hm : m < 2 ^ c.pw) (hpos : 1 ≤ w)
    (hmax : w ≤ c.bmax) (p : BitVec c.pw) :
    (unpacker c (intOperand c m) (lenOperand c w).toNat p).rangeErr = rangeErr m p.toNat ∧
      (unpacker c (intOperand c m) (lenOperand c w).toNat p).lenErr = lenErr m w := by
  have errs := unpacker_errs (intOperand c m) p hpos hmax
  rw [intOperand_toNat hm] at errs
  rwa [lenOperand_toNat_of_lt hw]

end Sys2Proof.Machine
end

section
/-! PROOFS. The byte unpacker and the operation UNPACK (42_byte_unpacker.md). -/

namespace Sys2Proof.Proofs

open Sys2Proof Sys2Proof.Machine

/-- Settles O10: inside the domain both errors are comparisons of naturals (`unpacker_errs`), and without a length error
the lanes are the image, with zeros above it (`unpacker_q`). -/
theorem unpackerComputesImage : Obligations.UnpackerComputesImage := by
  intro c m w p hpos hmax
  obtain ⟨hrange, hlen⟩ := unpacker_errs m p hpos hmax
  refine ⟨?_, ?_, fun hfits i hi => ?_⟩
  · rw [hrange, rangeErr_eq_true]
  · rw [hlen, lenErr_eq_true]
  · rw [unpacker_q m p hpos hmax hfits, lane_unpackerLanes_toNat _ w hi]

/-- Settles O11: a comparison with the bit length is one with a power (`lt_bitlen_iff`), and rounding up to whole bytes
does not change it; the padding is that of `bytesBe_eq_padded_minimal`. -/
theorem lengthCheckIsMinimalImageTest : Obligations.LengthCheckIsMinimalImageTest := by
  intro m w _
  refine ⟨by omega, lt_bitlen_iff m (8 * w), fun hfits => ?_⟩
  rw [← pow_256] at hfits
  exact (bytesBe_eq_padded_minimal hfits).symm

/-- Settles O23: the checks end in their order (`Bcu.block_cases`), and past them UNPACKER's two errors decide, the
range before the length. -/
theorem unpackFollowsItsRule : Obligations.UnpackFollowsItsRule := by
  intro s k w m hwf
  obtain ⟨-, hw, hm⟩ := (wellFormed_unpack_iff k w m).1 hwf
  have hlen : (lenOperand s.cfg w).toNat = w := lenOperand_toNat_of_lt hw
  refine ⟨fun he => ?_, fun he hc => ?_, fun he hc hcount => ?_, fun he hc hpos hle hmax => ?_⟩
  · rw [exec_unpack, Bcu.unpack, Bcu.block_of_err he]; rfl
  · rw [exec_unpack, Bcu.unpack, Bcu.block_of_unconfigured he hc]; rfl
  · rw [exec_unpack, Bcu.unpack, Bcu.block_of_count he hc (by omega)]; rfl
  · have admits : s.bcu.Admits (lenOperand s.cfg w) := ⟨he, hc, by omega, by omega⟩
    obtain ⟨hrange, hlenErr⟩ := unpacker_errs_operands hw hm hpos hmax s.bcu.p
    refine ⟨fun hge => ?_, fun hlt hlong => ?_, fun hlt hfits => ?_⟩
    · rw [exec_unpack, Bcu.unpack_of_rangeErr admits (hrange.trans ((rangeErr_eq_true _ _).2 hge))]
      rfl
    · rw [exec_unpack, Bcu.unpack_of_lenErr admits (hrange.trans ((rangeErr_eq_false _ _).2 hlt))
        (hlenErr.trans ((lenErr_eq_true _ _).2 hlong))]
      rfl
    · exact ⟨_, _, hlen, exec_unpack_completes admits hw hmax hlt hfits k,
        fun _ hi => lane_unpackerLanes_toNat m w hi⟩

/-- Settles O24: the modulus of a configured run is above 0 and so is every power of two, so UNPACK completes, and the
image of 0 is 0 (`unpackerLanes_zero`). -/
theorem zeroUnpacksToZeroBytes : Obligations.ZeroUnpacksToZeroBytes := by
  intro s k w hwf hinv he hc hpos hle
  obtain ⟨-, hw, -⟩ := (wellFormed_unpack_iff k w 0).1 hwf
  have hlen : (lenOperand s.cfg w).toNat = w := lenOperand_toNat_of_lt hw
  have below : 0 < s.bcu.p.toNat := Nat.lt_of_lt_of_le (by decide) (Bcu.modulus_ge_256 hinv hc)
  rw [exec_unpack_completes ⟨he, hc, by omega, by omega⟩ hw (hle.trans (Bcu.bsz_le_bmax hinv)) below
    (Nat.two_pow_pos (8 * w)) k, unpackerLanes_zero]
  rfl

end Sys2Proof.Proofs
end

section
/-! SUPPORT. An operation and a clock edge as functions of the registers, and a cycle of the harness once it has read its
outputs. -/

namespace Sys2Proof.Machine

variable {c : Params}

/-- The registers an operation leaves (R34). -/
def Bcu.after (u : Bcu c) : Instr → Bcu c
  | .nop => u.nop
  | .cfg p => Bcu.configure c (intOperand c p)
  | .pack k n lanes => u.pack (idxOperand c k) (lenOperand c n) (bytesOperand c lanes)
  | .unpack k w m => u.unpack (idxOperand c k) (lenOperand c w) (intOperand c m)

theorem exec_eq_after (i : Instr) (s : State) : exec i s = .next (s.withBcu (s.bcu.after i)) := by
  cases i <;> rfl

/-- The registers after a clock edge (R190, R194). -/
def State.nextBcu (s : State) : Bcu s.cfg :=
  if s.rstNow then Bcu.reset s.cfg else s.bcu.after (decode s.cfg s.sample.1)

theorem step_eq_next (s : State) : step s = .next (s.sample.2.withBcu s.nextBcu) := by
  cases hr : s.rstNow with
  | true => rw [step_of_rst hr, State.nextBcu, if_pos hr]
  | false => rw [step_of_request hr, exec_eq_after, State.nextBcu, if_neg (by simp [hr])]; rfl

/-- What the harness does in a cycle once it has read its outputs (R140). -/
def Harness.act (h : Harness c) : BitVec c.rw × Harness c :=
  match h.ctl, h.todo with
  | .idle, [] => (encode c .nop, h)
  | .idle, .present w :: rest => (w, { h with todo := rest })
  | .idle, .call q :: rest => ({ h with todo := rest, ctl := .start q } : Harness c).proceed
  | _, _ => h.proceed

theorem Harness.cycle_eq_act (h : Harness c) (u : Bcu c) : h.cycle u = (h.readOutputs u).act := rfl

theorem Harness.act_of_running {h : Harness c} (hn : h.ctl ≠ .idle) : h.act = h.proceed := by
  unfold Harness.act
  split <;> simp_all

theorem Harness.act_of_idle {h : Harness c} (hi : h.ctl = .idle) (ht : h.todo = []) : h.act = (encode c .nop, h) := by
  simp [Harness.act, hi, ht]

theorem Harness.act_cases (h : Harness c) :
    (h.ctl = .idle ∧ h.act = (encode c .nop, h)) ∨
    (∃ w rest, h.ctl = .idle ∧ h.act = (w, { h with todo := rest })) ∨
    (∃ q rest, h.ctl = .idle ∧ h.act = ({ h with todo := rest, ctl := .start q } : Harness c).proceed) ∨
    (h.ctl ≠ .idle ∧ h.act = h.proceed) := by
  by_cases hi : h.ctl = .idle
  · rcases ht : h.todo with - | ⟨w | q, rest⟩
    · exact .inl ⟨hi, Harness.act_of_idle hi ht⟩
    · exact .inr (.inl ⟨w, rest, hi, by simp [Harness.act, hi, ht]⟩)
    · exact .inr (.inr (.inl ⟨q, rest, hi, by simp [Harness.act, hi, ht]⟩))
  · exact .inr (.inr (.inr ⟨hi, Harness.act_of_running hi⟩))

end Sys2Proof.Machine
end

section
/-! SUPPORT. RES_INT is below the modulus of a configured run, and 0 without one (R32, R103). -/

namespace Sys2Proof.Machine

variable {c : Params} {u : Bcu c}

theorem Bcu.resIntInRange_reset (c : Params) : (Bcu.reset c).ResIntInRange := ⟨nofun, fun _ => rfl⟩

theorem Bcu.resIntInRange_configure (p : BitVec c.pw) : (Bcu.configure c p).ResIntInRange :=
  ⟨(Bcu.packedInRange_configure p).2, fun _ => rfl⟩

theorem Bcu.BlockEnds.resIntInRange {v result : Bcu c} {k : BitVec c.iw} {n : BitVec c.lw} {ok : Prop}
    (h : u.BlockEnds k n ok result v) (hu : u.ResIntInRange) (hresult : u.Admits n → result.ResIntInRange) :
    v.ResIntInRange := by
  cases h with
  | refused => exact hu
  | raised => exact hu
  | completed admits => exact hresult admits

/-- A completed PACK runs in a configuration and writes a value below its modulus (`Bcu.be_lt_modulus`). -/
theorem Bcu.resIntInRange_pack (hinv : u.Inv) (h : u.ResIntInRange) (k : BitVec c.iw) (n : BitVec c.lw)
    (d : BitVec (8 * c.bmax)) : (u.pack k n d).ResIntInRange := by
  refine (u.pack_ends k n d).resIntInRange h fun ⟨_, hc, _, hle⟩ => ?_
  refine ⟨fun _ => ?_, fun hf => Bool.noConfusion (hc.symm.trans hf)⟩
  change (packer c d n.toNat u.p).v.toNat < u.p.toNat
  rw [packer_v_toNat d u.p (hle.trans (Bcu.bsz_le_bmax hinv))]
  exact Bcu.be_lt_modulus hinv hc hle (lane d)

theorem Bcu.resIntInRange_unpack (h : u.ResIntInRange) (k : BitVec c.iw) (w : BitVec c.lw) (m : BitVec c.pw) :
    (u.unpack k w m).ResIntInRange :=
  (u.unpack_ends k w m).resIntInRange h fun _ => h

theorem step_keeps_resIntInRange {s t : State} :
    s.bcu.Inv ∧ s.bcu.ResIntInRange → step s = .next t → t.bcu.Inv ∧ t.bcu.ResIntInRange :=
  step_keeps (P := fun u => u.Inv ∧ u.ResIntInRange) (fun c => ⟨Bcu.inv_reset c, Bcu.resIntInRange_reset c⟩)
    (exec_keeps (P := fun u => u.Inv ∧ u.ResIntInRange) id
      (fun p => ⟨Bcu.inv_configure p, Bcu.resIntInRange_configure p⟩)
      (fun ⟨hinv, h⟩ k n d => ⟨Bcu.inv_pack hinv k n d, Bcu.resIntInRange_pack hinv h k n d⟩)
      (fun ⟨hinv, h⟩ k w m => ⟨Bcu.inv_unpack hinv k w m, Bcu.resIntInRange_unpack h k w m⟩))

end Sys2Proof.Machine
end

section
/-! SUPPORT. The precondition of encrypt along a cycle of the harness (R153, R157): reading the outputs keeps it, and so
does what the harness then presents. -/

namespace Sys2Proof.Machine

variable {c : Params} {u u' : Bcu c} {h : Harness c}

/-! ## Operations that leave the configuration -/

/-- If the registers are configured after, they were before, with the same modulus. -/
def Bcu.SameRun (u u' : Bcu c) : Prop := u'.cfgd = true → u.cfgd = true ∧ u'.p = u.p

theorem Bcu.sameRun_reset (u : Bcu c) : u.SameRun (Bcu.reset c) := nofun

/-- Every operation but CFG leaves CFGD and P. -/
theorem Bcu.sameRun_after (u : Bcu c) {i : Instr} (hi : ∀ p, i ≠ .cfg p) : u.SameRun (u.after i) := by
  cases i with
  | nop => exact fun hc => ⟨hc, rfl⟩
  | cfg p => exact absurd rfl (hi p)
  | pack k n lanes =>
    rcases (u.pack_ends (idxOperand c k) (lenOperand c n) (bytesOperand c lanes)).frame with h | ⟨_, _, h⟩ <;>
      rw [Bcu.after, h] <;> exact fun hc => ⟨hc, rfl⟩
  | unpack k w m =>
    rcases (u.unpack_ends (idxOperand c k) (lenOperand c w) (intOperand c m)).frame with h | ⟨_, _, h⟩ <;>
      rw [Bcu.after, h] <;> exact fun hc => ⟨hc, rfl⟩

theorem Ctl.EncryptsInRange.of_sameRun {k : Ctl c} (hk : k.EncryptsInRange u) (hu : u.SameRun u') :
    k.EncryptsInRange u' := by
  cases k <;> simp only [Ctl.EncryptsInRange] at hk ⊢ <;> try exact hk
  case encodeCfgIssued e =>
    obtain ⟨hmod, hp⟩ := hk
    exact ⟨hmod, fun hc => (hu hc).2.trans (hp (hu hc).1)⟩
  case encodePack e | encodePackIssued e =>
    obtain ⟨hmod, hp, hrest⟩ := hk
    exact ⟨hmod, fun hc => (hu hc).2.trans (hp (hu hc).1), hrest⟩

/-- The precondition of encrypt, as far as the harness is concerned. -/
def Harness.EncryptsInRange (u : Bcu c) (h : Harness c) : Prop :=
  h.ctl.EncryptsInRange u ∧ h.oracle.EncryptsInRange

/-! ## Reading the outputs -/

theorem Harness.EncryptsInRange.returns (ho : h.oracle.EncryptsInRange) (v : Verdict c) :
    (h.returns v).EncryptsInRange u := ⟨trivial, ho⟩

/-- An OK of ENCODE hands its integers to VERIFY, whose modulus is that of ENCODE. -/
theorem Harness.EncryptsInRange.encodeDone {e : EncodeJob c} {v : Verdict c} (ho : h.oracle.EncryptsInRange)
    (hv : ∀ ints, v = .okInts ints → e.SameModulus ∧ ∀ m ∈ ints, m.toNat < e.p.toNat) :
    (h.encodeDone e v).EncryptsInRange u := by
  rcases h.encodeDone_cases e v with ⟨ints, args, key, hok, hcaller, hd⟩ | ⟨-, hd⟩ <;> rw [hd]
  · obtain ⟨hmod, hints⟩ := hv ints hok
    exact ⟨fun m hm => hmod args key hcaller ▸ hints m hm, ho⟩
  · exact .returns ho v

theorem Harness.EncryptsInRange.decodeDone (ho : h.oracle.EncryptsInRange) (d : DecodeJob c) (v : Verdict c) :
    (h.decodeDone d v).EncryptsInRange u := by
  rcases h.decodeDone_cases d v with ⟨_, _, -, -, hd⟩ | ⟨-, hd⟩ <;> rw [hd] <;> exact .returns ho _

theorem Harness.EncryptsInRange.encodeLoop {e : EncodeJob c} (ho : h.oracle.EncryptsInRange)
    (he : (Ctl.encodePack e).EncryptsInRange u) : (h.encodeLoop e).EncryptsInRange u := by
  have ⟨hmod, _, _, hints⟩ := he
  rcases h.encodeLoop_cases e with ⟨-, hl⟩ | ⟨-, hl⟩ <;> rw [hl]
  · exact ⟨he, ho⟩
  · refine .encodeDone ho fun ints hok => ?_
    obtain rfl := Verdict.okInts.inj hok
    exact ⟨hmod, hints⟩

theorem Harness.EncryptsInRange.decodeLoop (ho : h.oracle.EncryptsInRange) (d : DecodeJob c) :
    (h.decodeLoop d).EncryptsInRange u := by
  rcases h.decodeLoop_cases d with ⟨-, hl⟩ | ⟨-, hl⟩ <;> rw [hl]
  · exact ⟨trivial, ho⟩
  · exact .decodeDone ho d _

/-- After its CFG an ENCODE that goes on to its loop has read a BSZ above 0, so the registers are configured, with its own
modulus. -/
theorem Harness.EncryptsInRange.encodeConfigured {e : EncodeJob c} (hinv : u.Inv) (ho : h.oracle.EncryptsInRange)
    (he : (Ctl.encodeCfgIssued e).EncryptsInRange u) : (h.encodeConfigured e u).EncryptsInRange u := by
  obtain ⟨hmod, hp⟩ := he
  unfold Harness.encodeConfigured
  split_ifs with _ hb
  · exact .encodeDone ho nofun
  · exact .encodeDone ho nofun
  · exact .encodeDone ho nofun
  · have hc : u.cfgd = true := hinv.2.1.2 (Nat.one_le_iff_ne_zero.2 hb)
    exact .encodeLoop ho ⟨hmod, hp, hp hc ▸ Bcu.modulus_ge_256 hinv hc, nofun⟩

/-- After a PACK the integer read is below the modulus of the run, or 0 where a reset ended the run. -/
theorem Harness.EncryptsInRange.encodePacked {e : EncodeJob c} (hres : u.ResIntInRange)
    (ho : h.oracle.EncryptsInRange) (he : (Ctl.encodePackIssued e).EncryptsInRange u) :
    (h.encodePacked e u).EncryptsInRange u := by
  obtain ⟨hmod, hp, hge, hints⟩ := he
  have hread : u.resInt.toNat < e.p.toNat := by
    obtain ⟨hbelow, hzero⟩ := hres
    cases hc : u.cfgd with
    | true => exact hp hc ▸ hbelow hc
    | false => rw [hzero hc]; exact Nat.lt_of_lt_of_le (by simp) hge
  unfold Harness.encodePacked
  split_ifs
  · exact .encodeDone ho nofun
  · refine .encodeLoop ho ⟨hmod, hp, hge, fun m hm => ?_⟩
    rcases List.mem_append.1 hm with hm | hm
    · exact hints m hm
    · exact List.mem_singleton.1 hm ▸ hread

theorem Harness.EncryptsInRange.readOutputs (hinv : u.Inv) (hres : u.ResIntInRange) (hh : h.EncryptsInRange u) :
    (h.readOutputs u).EncryptsInRange u := by
  have ⟨hk, ho⟩ := hh
  unfold Harness.readOutputs
  split
  next e hctl => exact .encodeConfigured hinv ho (hctl ▸ hk)
  next e hctl => exact .encodePacked hres ho (hctl ▸ hk)
  next d _ =>
    unfold Harness.decodeConfigured
    split_ifs
    · exact .decodeDone ho _ _
    · exact .decodeDone ho _ _
    · exact .decodeDone ho _ _
    · exact .decodeLoop ho _
  next d _ =>
    unfold Harness.decodeUnpacked
    split_ifs
    · exact .decodeDone ho _ _
    · exact .decodeLoop ho _
  all_goals exact hh

/-! ## Presenting a request -/

/-- The registers after an edge at which the word `w` is presented: those of reset, or of its operation. -/
def Bcu.Follows (u : Bcu c) (w : BitVec c.rw) (u' : Bcu c) : Prop := u' = Bcu.reset c ∨ u' = u.after (decode c w)

theorem Bcu.Follows.sameRun {i : Instr} (hu : u.Follows (encode c i) u') (hi : ∀ p, (request c i).instr ≠ .cfg p) :
    u.SameRun u' := by
  rcases hu with rfl | rfl
  · exact u.sameRun_reset
  · exact u.sameRun_after (by rwa [decode_encode_request])

theorem Bcu.Follows.sameRun_nop (hu : u.Follows (encode c .nop) u') : u.SameRun u' := hu.sameRun nofun

theorem decode_encode_cfg (p : BitVec c.pw) : decode c (encode c (.cfg p.toNat)) = .cfg p.toNat :=
  decode_encode ((wellFormed_cfg_iff p.toNat).2 p.isLt)

theorem after_cfg (u : Bcu c) (p : BitVec c.pw) : u.after (.cfg p.toNat) = Bcu.configure c p := by
  simp [Bcu.after, intOperand]

/-- The record of encrypt calls grows by one with an integer of the ENCODE before, which is in range. -/
theorem Harness.EncryptsInRange.callEncrypt {args : VerifyArgs c} {key : Keys} {ints : List (BitVec c.pw)}
    {records : List Record} (hctl : h.ctl = .encrypt args key ints records) (hh : h.EncryptsInRange u) :
    (h.callEncrypt args key ints records).EncryptsInRange u := by
  have ⟨hk, ho⟩ := hh
  rw [hctl] at hk
  unfold Harness.callEncrypt
  split
  · exact ⟨trivial, ho⟩
  next m hm =>
    split
    · exact hh
    · refine ⟨hk, fun m' q kpriv p a p0 r hmem => ?_⟩
      rcases List.mem_append.1 hmem with hmem | hmem
      · exact ho m' q kpriv p a p0 r hmem
      · injection List.mem_singleton.1 hmem with hm' _ _ hp
        rw [hm', hp]
        exact hk m (List.mem_of_getElem? hm)

/-- A call of keygen or decrypt is no call of encrypt. -/
theorem Oracle.EncryptsInRange.append {calls : List (CipherCall c)} {call : CipherCall c} {keys : List Keys}
    {records : List Record} {plains : List Nat} {o : Oracle c} (ho : o.EncryptsInRange) (hcalls : o.calls = calls)
    (hcall : ∀ m q kpriv p a p0 r, call ≠ .encrypt m q kpriv p a p0 r) :
    Oracle.EncryptsInRange ⟨keys, records, plains, calls ++ [call]⟩ := by
  subst hcalls
  intro m q kpriv p a p0 r hmem
  rcases List.mem_append.1 hmem with hmem | hmem
  · exact ho m q kpriv p a p0 r hmem
  · exact absurd (List.mem_singleton.1 hmem).symm (hcall m q kpriv p a p0 r)

theorem Harness.EncryptsInRange.callKeygen (args : VerifyArgs c) (hh : h.EncryptsInRange u) :
    (h.callKeygen args).EncryptsInRange u := by
  unfold Harness.callKeygen
  split
  · exact hh
  · refine ⟨fun args' key' hc => ?_, hh.2.append rfl nofun⟩
    obtain ⟨rfl, -⟩ := Prod.mk.inj (Option.some.inj hc)
    rfl

theorem Harness.EncryptsInRange.callDecrypt (args : VerifyArgs c) (key : Keys) (b : Bundle c) (ints : List Nat)
    (hh : h.EncryptsInRange u) : (h.callDecrypt args key b ints).EncryptsInRange u := by
  unfold Harness.callDecrypt
  split
  · exact ⟨trivial, hh.2⟩
  · split
    · exact hh
    · exact ⟨trivial, hh.2.append rfl nofun⟩

theorem Harness.EncryptsInRange.reloadBundle (args : VerifyArgs c) (key : Keys) (hh : h.EncryptsInRange u) :
    (h.reloadBundle args key).EncryptsInRange u := by
  unfold Harness.reloadBundle
  split
  · exact hh
  · exact ⟨trivial, hh.2⟩

theorem Harness.EncryptsInRange.of_sameRun (hh : h.EncryptsInRange u) (hu : u.SameRun u') : h.EncryptsInRange u' :=
  ⟨hh.1.of_sameRun hu, hh.2⟩

/-- What a running procedure does in a cycle keeps the precondition: its CFG configures its own modulus or is discarded
by reset, and nothing else it presents changes the configuration. -/
theorem Harness.EncryptsInRange.present (hh : h.EncryptsInRange u) (hu : u.Follows (encode c h.present.1) u') :
    h.present.2.EncryptsInRange u' := by
  have ⟨hk, ho⟩ := hh
  unfold Harness.present at hu ⊢
  cases hctl : h.ctl <;> simp only [hctl] at hk hu ⊢
  case encodeCfg e =>
    refine ⟨⟨hk, fun hc => ?_⟩, ho⟩
    rcases hu with rfl | rfl
    · exact Bool.noConfusion hc
    · rw [decode_encode_cfg, after_cfg]; rfl
  case encodePack e =>
    refine ⟨Ctl.EncryptsInRange.of_sameRun (k := .encodePackIssued e) hk (hu.sameRun ?_), ho⟩
    exact fun p => by rw [EncodeJob.pack, Request.instr_of_op_pack rfl]; nofun
  case decodeCfg | decodeUnpack | persist => exact ⟨trivial, ho⟩
  case keygen args => exact (hh.callKeygen args).of_sameRun hu.sameRun_nop
  case encrypt => exact (hh.callEncrypt hctl).of_sameRun hu.sameRun_nop
  case reload args key => exact (hh.reloadBundle args key).of_sameRun hu.sameRun_nop
  case decrypt args key b ints => exact (hh.callDecrypt args key b ints).of_sameRun hu.sameRun_nop
  all_goals exact hh.of_sameRun hu.sameRun_nop

theorem Harness.EncryptsInRange.proceed (hh : h.EncryptsInRange u) (hu : u.Follows h.proceed.1 u') :
    h.proceed.2.EncryptsInRange u' := by
  rcases h.proceed_cases with ⟨rest, -, hp⟩ | ⟨-, hp⟩ <;> rw [hp] at hu ⊢
  · exact Harness.EncryptsInRange.of_sameRun (h := { h with waits := rest }) hh hu.sameRun_nop
  · exact Harness.EncryptsInRange.present (h := { h with waits := h.waits.tail }) hh hu

theorem Ctl.encryptsInRange_start (q : Call c) : (Ctl.start q).EncryptsInRange u := by
  cases q with
  | encode => exact nofun
  | decode => trivial
  | verify => trivial

/-- A cycle after its outputs are read: idle, a word of the host's, a procedure that starts, or one that goes on. -/
theorem Harness.EncryptsInRange.act (hh : h.EncryptsInRange u) (hu : u.Follows h.act.1 u') :
    h.act.2.EncryptsInRange u' := by
  have ⟨_, ho⟩ := hh
  rcases h.act_cases with ⟨-, ha⟩ | ⟨w, rest, hi, ha⟩ | ⟨q, rest, -, ha⟩ | ⟨-, ha⟩ <;> rw [ha] at hu ⊢
  · exact hh.of_sameRun hu.sameRun_nop
  · refine ⟨?_, ho⟩
    change Ctl.EncryptsInRange u' h.ctl
    rw [hi]
    trivial
  · exact Harness.EncryptsInRange.proceed (h := { h with todo := rest, ctl := .start q })
      ⟨Ctl.encryptsInRange_start q, ho⟩ hu
  · exact hh.proceed hu

theorem State.follows_nextBcu (s : State) : s.bcu.Follows s.sample.1 s.nextBcu := by
  unfold State.nextBcu Bcu.Follows
  cases s.rstNow <;> simp

end Sys2Proof.Machine
end

section
/-! PROOFS. The precondition of encrypt (43_round_trip_verifier.md R153). -/

namespace Sys2Proof.Proofs

open Sys2Proof Sys2Proof.Machine

/-- Settles O59: at reset no procedure runs and no call was made. At a step, RES_INT stays in range
(`step_keeps_resIntInRange`), and the harness keeps its part when it reads the outputs and when it then presents a request
(`Harness.EncryptsInRange.readOutputs`, `Harness.EncryptsInRange.act`). -/
theorem encryptIsCalledInRange : Obligations.EncryptIsCalledInRange := by
  refine ⟨fun c => ⟨Bcu.resIntInRange_reset c, trivial, nofun⟩, fun s t hinv ⟨hres, hctl, horacle⟩ h => ?_⟩
  refine ⟨(step_keeps_resIntInRange ⟨hinv, hres⟩ h).2, ?_⟩
  obtain rfl := Host.Outcome.next.inj ((step_eq_next s).symm.trans h)
  have hread : (s.harness.readOutputs s.bcu).EncryptsInRange s.bcu := .readOutputs hinv hres ⟨hctl, horacle⟩
  exact hread.act s.follows_nextBcu

end Sys2Proof.Proofs
end

section
/-! SUPPORT. The verdicts a procedure ends with (R154, R157), and the cycles of a harness with nothing left to do or without
waits, with `rst` low or high. -/

namespace Sys2Proof.Machine

variable {c : Params} (h : Harness c)

/-! ## Ending a procedure -/

@[simp] theorem Harness.decodeDone_fail (d : DecodeJob c) (code : BitVec 4) (idx : Nat) :
    h.decodeDone d (.fail code idx) = h.returns (.fail code idx) := rfl

/-- The Bundle of a VERIFY (R156). -/
def bundleOf (v : VerifyArgs c) (key : Keys) (records : List Record) : Bundle c :=
  ⟨v.p, v.a, v.p0, key.q, v.src.length, records⟩

/-- With a record for every integer VERIFY puts its Bundle together (R157 step 4). -/
theorem Harness.present_encrypted {h : Harness c} {v : VerifyArgs c} {key : Keys} {ints : List (BitVec c.pw)}
    {records : List Record} (hctl : h.ctl = .encrypt v key ints records) (hlen : ints.length ≤ records.length) :
    h.present = (.nop, { h with ctl := .persist v key (bundleOf v key records) }) := by
  have hnone : ints[records.length]? = none := List.getElem?_eq_none hlen
  simp [Harness.present, hctl, Harness.callEncrypt, hnone, bundleOf]

/-! ## The comparison of VERIFY (R158) -/

theorem compareBuffers_of_eq {out src : List Byte} (heq : out = src) : compareBuffers (c := c) out src = .pass := by
  simp [compareBuffers, heq]

theorem compareBuffers_of_ne {out src : List Byte} (hne : out ≠ src) :
    compareBuffers (c := c) out src = .fail 5 (firstDiff out src) := by
  simp [compareBuffers, hne, ErrCode.code]

theorem eq_of_compareBuffers_eq_pass {out src : List Byte} (hpass : compareBuffers (c := c) out src = .pass) :
    out = src := by
  by_contra hne
  rw [compareBuffers_of_ne hne] at hpass
  cases hpass

/-- Two buffers of one length that differ do so at the offset `firstDiff` gives, and agree below it. -/
theorem firstDiff_spec {out src : List Byte} (hlen : out.length = src.length) (hne : out ≠ src) :
    firstDiff out src < src.length ∧
      out.getD (firstDiff out src) 0 ≠ src.getD (firstDiff out src) 0 ∧
      ∀ i < firstDiff out src, out.getD i 0 = src.getD i 0 := by
  induction out generalizing src with
  | nil => exact absurd (List.length_eq_zero_iff.1 hlen.symm).symm hne
  | cons x xs ih =>
    cases src with
    | nil => simp at hlen
    | cons y ys =>
      by_cases hxy : x = y
      · subst hxy
        obtain ⟨hlt, hdiff, hbelow⟩ := ih (Nat.succ.inj hlen) fun htail => hne (htail ▸ rfl)
        simp only [firstDiff, if_true, List.length_cons, Nat.add_lt_add_iff_right, List.getD_cons_succ]
        refine ⟨hlt, hdiff, fun i hi => ?_⟩
        cases i with
        | zero => rfl
        | succ i => exact hbelow i (Nat.lt_of_succ_lt_succ hi)
      · simp [firstDiff, hxy]

/-! ## Cycles with `rst` at any level -/

theorem Harness.readOutputs_of_idle {h : Harness c} (hi : h.ctl = .idle) (u : Bcu c) : h.readOutputs u = h := by
  simp [Harness.readOutputs, hi]

/-- A clock edge after which the harness is the one its cycle leaves. -/
theorem step_of_cycle_eq {u : Bcu c} {h' : Harness c} {w : BitVec c.rw} (r : List Bool) (hc : h.cycle u = (w, h')) :
    ∃ u' : Bcu c, step ⟨c, u, r, h⟩ = .next ⟨c, u', r.tail, h'⟩ := by
  obtain ⟨u', hs⟩ := step_total ⟨c, u, r, h⟩
  refine ⟨u', hs.trans ?_⟩
  simp [State.sample, hc]

/-- A running procedure without waits does in each cycle what it does next. -/
theorem step_of_no_waits (u : Bcu c) (r : List Bool) (hi : h.ctl.issued = false) (hn : h.ctl ≠ .idle)
    (hw : h.waits = []) : ∃ u' : Bcu c, step ⟨c, u, r, h⟩ = .next ⟨c, u', r.tail, h.present.2⟩ := by
  refine step_of_cycle_eq (w := encode c h.present.1) h r ?_
  rw [Harness.cycle_of_running u hi hn, Harness.proceed, hw]

/-- In the cycle in which a procedure returns and the host has nothing to do, it presents NOP. -/
theorem step_of_returned {u : Bcu c} (r : List Bool) (hi : (h.readOutputs u).ctl = .idle)
    (ht : (h.readOutputs u).todo = []) : ∃ u' : Bcu c,
      step ⟨c, u, r, h⟩ = .next ⟨c, u', r.tail, h.readOutputs u⟩ ∧
      ∀ n, presented (n + 1) ⟨c, u, r, h⟩ = .nop :: presented n ⟨c, u', r.tail, h.readOutputs u⟩ := by
  have hcycle := (h.cycle_eq_act u).trans (Harness.act_of_idle hi ht)
  obtain ⟨u', hs⟩ := step_of_cycle_eq h r hcycle
  exact ⟨u', hs, fun n => by rw [presented_succ hs]; simp [hcycle]⟩

theorem runFor_of_idle (hi : h.ctl = .idle) (ht : h.todo = []) (n : Nat) (u : Bcu c) (r : List Bool) :
    ∃ (u' : Bcu c) (r' : List Bool), runFor n ⟨c, u, r, h⟩ = .next ⟨c, u', r', h⟩ ∧
      presented n ⟨c, u, r, h⟩ = List.replicate n .nop := by
  induction n generalizing u r with
  | zero => exact ⟨u, r, rfl, rfl⟩
  | succ n ih =>
    have hread := Harness.readOutputs_of_idle hi u
    obtain ⟨u', hs, hpres⟩ := step_of_returned h r (hread.symm ▸ hi) (hread.symm ▸ ht)
    rw [hread] at hs hpres
    obtain ⟨u'', r'', hrun, hnops⟩ := ih u' r.tail
    exact ⟨u'', r'', (runFor_succ hs).trans hrun, by rw [hpres, hnops, List.replicate_succ]⟩

/-- Once a procedure has returned and the host has nothing to do, the machine presents NOP in every cycle and the harness
stays as it is. -/
theorem runFor_of_returned {u : Bcu c} (r : List Bool) (hi : (h.readOutputs u).ctl = .idle)
    (ht : (h.readOutputs u).todo = []) (n : Nat) :
    ∃ (u' : Bcu c) (r' : List Bool), runFor (n + 1) ⟨c, u, r, h⟩ = .next ⟨c, u', r', h.readOutputs u⟩ ∧
      presented (n + 1) ⟨c, u, r, h⟩ = List.replicate (n + 1) .nop := by
  obtain ⟨u', hs, hpres⟩ := step_of_returned h r hi ht
  obtain ⟨u'', r'', hrun, hnops⟩ := runFor_of_idle (h.readOutputs u) hi ht n u' r.tail
  exact ⟨u'', r'', (runFor_succ hs).trans hrun, by rw [hpres, hnops, List.replicate_succ]⟩

end Sys2Proof.Machine
end

section
/-! SUPPORT. When a cycle records PASS (R157, R160). -/

namespace Sys2Proof.Machine

variable {c : Params} (h : Harness c)

/-- The harness `h'` has recorded at most one verdict more than `h`, and PASS only under the condition `cond`. -/
def Harness.PassesOnlyIf (cond : Prop) (h' : Harness c) : Prop :=
  h'.verdicts = h.verdicts ∨ ∃ v, h'.verdicts = h.verdicts ++ [v] ∧ (v = .pass → cond)

theorem Harness.passesOnlyIf_encodeDone (cond : Prop) (e : EncodeJob c) {v : Verdict c} (hv : v ≠ .pass) :
    h.PassesOnlyIf cond (h.encodeDone e v) := by
  rcases h.encodeDone_cases e v with ⟨_, _, _, -, -, hd⟩ | ⟨-, hd⟩ <;> rw [hd]
  · exact .inl rfl
  · exact .inr ⟨v, rfl, fun hpass => absurd hpass hv⟩

theorem Harness.passesOnlyIf_encodeLoop (cond : Prop) (e : EncodeJob c) :
    h.PassesOnlyIf cond (h.encodeLoop e) := by
  rcases h.encodeLoop_cases e with ⟨-, hl⟩ | ⟨-, hl⟩ <;> rw [hl]
  · exact .inl rfl
  · exact h.passesOnlyIf_encodeDone cond e nofun

/-- DECODE passes only from an OK within VERIFY, whose comparison found the buffers equal. -/
theorem Harness.passesOnlyIf_decodeDone {cond : Prop} {d : DecodeJob c} {v : Verdict c} (hv : v ≠ .pass)
    (hok : ∀ src, d.caller = some src → v = .okBytes src → cond) : h.PassesOnlyIf cond (h.decodeDone d v) := by
  rcases h.decodeDone_cases d v with ⟨out, src, hout, hsrc, hd⟩ | ⟨-, hd⟩ <;> rw [hd]
  · exact .inr ⟨_, rfl, fun hpass => hok src hsrc (eq_of_compareBuffers_eq_pass hpass ▸ hout)⟩
  · exact .inr ⟨v, rfl, fun hpass => absurd hpass hv⟩

theorem Harness.passesOnlyIf_decodeLoop {cond : Prop} {d : DecodeJob c}
    (hok : ∀ src, d.caller = some src → d.out = src → cond) : h.PassesOnlyIf cond (h.decodeLoop d) := by
  rcases h.decodeLoop_cases d with ⟨-, hl⟩ | ⟨-, hl⟩ <;> rw [hl]
  · exact .inl rfl
  · exact h.passesOnlyIf_decodeDone nofun fun src hsrc hout => hok src hsrc (Verdict.okBytes.inj hout)

/-- What a cycle that records PASS has read: the end of a DECODE for VERIFY, with the source as its output. -/
def Harness.DecodedSource (u : Bcu c) : Prop :=
  ∃ (d : DecodeJob c) (src : List Byte), d.caller = some src ∧
    ((h.ctl = .decodeCfgIssued d ∧ src = []) ∨
     (h.ctl = .decodeUnpackIssued d ∧ memWrite d.out d.width u.resBytes = src))

theorem Harness.passesOnlyIf_readOutputs (u : Bcu c) :
    h.PassesOnlyIf (h.DecodedSource u) (h.readOutputs u) := by
  unfold Harness.readOutputs
  split
  next e _ =>
    unfold Harness.encodeConfigured
    split_ifs
    · exact h.passesOnlyIf_encodeDone _ e nofun
    · exact h.passesOnlyIf_encodeDone _ e nofun
    · exact h.passesOnlyIf_encodeDone _ e nofun
    · exact h.passesOnlyIf_encodeLoop _ _
  next e _ =>
    unfold Harness.encodePacked
    split_ifs
    · exact h.passesOnlyIf_encodeDone _ e nofun
    · exact h.passesOnlyIf_encodeLoop _ _
  next d hctl =>
    unfold Harness.decodeConfigured
    split_ifs
    · exact h.passesOnlyIf_decodeDone nofun nofun
    · exact h.passesOnlyIf_decodeDone nofun nofun
    · exact h.passesOnlyIf_decodeDone nofun nofun
    · exact h.passesOnlyIf_decodeLoop fun src hsrc hout => ⟨d, src, hsrc, .inl ⟨hctl, hout.symm⟩⟩
  next d hctl =>
    unfold Harness.decodeUnpacked
    split_ifs
    · exact h.passesOnlyIf_decodeDone nofun nofun
    · exact h.passesOnlyIf_decodeLoop fun src hsrc hout => ⟨d, src, hsrc, .inr ⟨hctl, hout⟩⟩
  all_goals exact .inl rfl

/-- A cycle records verdicts where it reads outputs, and nowhere else. -/
theorem step_verdicts {s t : State} (hs : step s = .next t) :
    ∃ u r h, t = ⟨s.cfg, u, r, h⟩ ∧ h.verdicts = (s.harness.readOutputs s.bcu).verdicts := by
  obtain rfl := Host.Outcome.next.inj ((step_eq_next s).symm.trans hs)
  exact ⟨_, _, _, rfl, Harness.cycle_verdicts _ _⟩

end Sys2Proof.Machine
end

section
/-! PROOFS. The ends of VERIFY and of a failed run (43_round_trip_verifier.md R155 to R158, R160). -/

namespace Sys2Proof.Proofs

open Sys2Proof Sys2Proof.Machine

/-- Settles O54: `firstDiff` finds the least differing offset, by induction along the two buffers (`firstDiff_spec`). -/
theorem comparisonFailsAtLeastOffset : Obligations.ComparisonFailsAtLeastOffset :=
  fun _ _ _ hlen => ⟨compareBuffers_of_eq, fun hne => ⟨_, compareBuffers_of_ne hne, firstDiff_spec hlen hne⟩⟩

/-- Settles O56: only a DECODE that ends with OK within VERIFY is compared, and only equal buffers compare as PASS
(`Harness.passesOnlyIf_readOutputs`). -/
theorem passOnlyOnEqualBuffers : Obligations.PassOnlyOnEqualBuffers := by
  intro s t hs hlen hlast
  obtain ⟨u, r, h, rfl, hverdicts⟩ := step_verdicts hs
  rw [hverdicts] at hlen hlast
  rcases s.harness.passesOnlyIf_readOutputs s.bcu with hsame | ⟨v, hv, hcond⟩
  · rw [hsame] at hlen
    omega
  · rw [hv, List.getLast?_concat] at hlast
    exact hcond (Option.some.inj hlast)

/-- Settles O57: three cycles of a harness without waits: the Bundle is put together, stored and read back. -/
theorem bundleIsStoredAndReadBack : Obligations.BundleIsStoredAndReadBack := by
  intro s v key ints records hctl hlen hw
  obtain ⟨u₁, h₁⟩ := step_of_no_waits s.harness s.bcu s.rst (by rw [hctl]; rfl) (by rw [hctl]; nofun) hw
  rw [Harness.present_encrypted hctl hlen] at h₁
  obtain ⟨u₂, h₂⟩ := step_of_no_waits { s.harness with ctl := .persist v key _ } u₁ s.rst.tail rfl nofun hw
  obtain ⟨u₃, h₃⟩ := step_of_no_waits { s.harness with ctl := .reload v key, storage := some _ } u₂ s.rst.tail.tail
    rfl nofun hw
  exact ⟨u₃, _, _, (runFor_succ h₁).trans ((runFor_succ h₂).trans (runFor_one h₃)), rfl, rfl, rfl⟩

/-- Settles O58: the cycle that reads the error returns FAIL, and after it nothing is left to do
(`runFor_of_returned`). -/
theorem failEndsTheRun : Obligations.FailEndsTheRun := by
  intro s e d n hctl herr htodo
  have hread : s.harness.readOutputs s.bcu = s.harness.returns (.fail s.bcu.err s.bcu.errIdx.toNat) := by
    rcases hctl with hctl | hctl
    · simp only [Harness.readOutputs, hctl]
      exact if_pos herr
    · simp only [Harness.readOutputs, hctl]
      exact if_pos herr
  obtain ⟨u, r, hrun, hpres⟩ := runFor_of_returned s.harness s.rst (by rw [hread]; rfl)
    (by rw [hread]; exact htodo) n
  refine ⟨u, r, _, hrun, by rw [hread]; rfl, by rw [hread]; rfl, fun i hi => ?_⟩
  rw [hpres] at hi
  exact List.eq_of_mem_replicate hi

end Sys2Proof.Proofs
end

section
/-! SUPPORT. Runs with `rst` low, wait cycles aside: where a run takes the harness, which requests it presents, and how a
procedure that has its verdict ends (R140, R154). -/

namespace Sys2Proof.Machine

variable {c : Params} (h : Harness c)

/-! ## The waits have no part in what the harness does -/

theorem Harness.callKeygen_waits (args : VerifyArgs c) (ws : List Bool) :
    ({ h with waits := ws } : Harness c).callKeygen args = { h.callKeygen args with waits := ws } := by
  cases hk : h.oracle.keys <;> simp [Harness.callKeygen, hk]

theorem Harness.callEncrypt_waits (args : VerifyArgs c) (key : Keys) (ints : List (BitVec c.pw))
    (records : List Record) (ws : List Bool) :
    ({ h with waits := ws } : Harness c).callEncrypt args key ints records =
      { h.callEncrypt args key ints records with waits := ws } := by
  cases hm : ints[records.length]? with
  | none => simp [Harness.callEncrypt, hm]
  | some => cases hr : h.oracle.records <;> simp [Harness.callEncrypt, hm, hr]

theorem Harness.callDecrypt_waits (args : VerifyArgs c) (key : Keys) (b : Bundle c) (ints : List Nat)
    (ws : List Bool) :
    ({ h with waits := ws } : Harness c).callDecrypt args key b ints =
      { h.callDecrypt args key b ints with waits := ws } := by
  cases hr : b.records[ints.length]? with
  | none => simp [Harness.callDecrypt, hr]
  | some => cases hp : h.oracle.plains <;> simp [Harness.callDecrypt, hr, hp]

theorem Harness.reloadBundle_waits (args : VerifyArgs c) (key : Keys) (ws : List Bool) :
    ({ h with waits := ws } : Harness c).reloadBundle args key = { h.reloadBundle args key with waits := ws } := by
  cases hs : h.storage <;> simp [Harness.reloadBundle, hs]

theorem Harness.present_waits (ws : List Bool) :
    ({ h with waits := ws } : Harness c).present = (h.present.1, { h.present.2 with waits := ws }) := by
  obtain ⟨todo, ctl, ws', oracle, storage, verdicts⟩ := h
  cases ctl <;> try rfl
  case keygen => exact congrArg _ (Harness.callKeygen_waits ⟨todo, _, ws', oracle, storage, verdicts⟩ _ ws)
  case encrypt => exact congrArg _ (Harness.callEncrypt_waits ⟨todo, _, ws', oracle, storage, verdicts⟩ _ _ _ _ ws)
  case reload => exact congrArg _ (Harness.reloadBundle_waits ⟨todo, _, ws', oracle, storage, verdicts⟩ _ _ ws)
  case decrypt => exact congrArg _ (Harness.callDecrypt_waits ⟨todo, _, ws', oracle, storage, verdicts⟩ _ _ _ _ ws)

theorem Harness.encodeDone_waits (e : EncodeJob c) (v : Verdict c) (ws : List Bool) :
    ({ h with waits := ws } : Harness c).encodeDone e v = { h.encodeDone e v with waits := ws } := by
  unfold Harness.encodeDone; split <;> rfl

theorem Harness.decodeDone_waits (d : DecodeJob c) (v : Verdict c) (ws : List Bool) :
    ({ h with waits := ws } : Harness c).decodeDone d v = { h.decodeDone d v with waits := ws } := by
  unfold Harness.decodeDone; split <;> rfl

theorem Harness.encodeLoop_waits (e : EncodeJob c) (ws : List Bool) :
    ({ h with waits := ws } : Harness c).encodeLoop e = { h.encodeLoop e with waits := ws } := by
  unfold Harness.encodeLoop
  split
  · rfl
  · exact h.encodeDone_waits e _ ws

theorem Harness.decodeLoop_waits (d : DecodeJob c) (ws : List Bool) :
    ({ h with waits := ws } : Harness c).decodeLoop d = { h.decodeLoop d with waits := ws } := by
  unfold Harness.decodeLoop
  split
  · rfl
  · exact h.decodeDone_waits d _ ws

theorem Harness.readOutputs_waits (u : Bcu c) (ws : List Bool) :
    ({ h with waits := ws } : Harness c).readOutputs u = { h.readOutputs u with waits := ws } := by
  unfold Harness.readOutputs
  cases hctl : h.ctl <;> simp only [hctl]
  case encodeCfgIssued e =>
    unfold Harness.encodeConfigured
    split_ifs
    · rfl
    · rfl
    · rfl
    · rw [← hctl, h.encodeLoop_waits]
  case encodePackIssued e =>
    unfold Harness.encodePacked
    split_ifs
    · rfl
    · rw [← hctl, h.encodeLoop_waits]
  case decodeCfgIssued d =>
    unfold Harness.decodeConfigured
    split_ifs
    · rfl
    · rfl
    · rfl
    · rw [← hctl, h.decodeLoop_waits]
  case decodeUnpackIssued d =>
    unfold Harness.decodeUnpacked
    split_ifs
    · rfl
    · rw [← hctl, h.decodeLoop_waits]

theorem Harness.act_verdicts : h.act.2.verdicts = h.verdicts := by
  rcases h.act_cases with ⟨-, ha⟩ | ⟨w, rest, -, ha⟩ | ⟨q, rest, -, ha⟩ | ⟨-, ha⟩ <;> rw [ha]
  · exact Harness.proceed_verdicts _
  · exact Harness.proceed_verdicts _

/-! ## Where the harness stands, and where a run arrives -/

/-- The requests among the operations presented: those that are no idle cycle. -/
def requests (ops : List Instr) : List Instr := ops.filter fun i => decide (i ≠ .nop)

theorem requests_append (ops ops' : List Instr) : requests (ops ++ ops') = requests ops ++ requests ops' :=
  List.filter_append ..

@[simp] theorem requests_replicate_nop (n : Nat) : requests (List.replicate n .nop) = [] := by
  simp [requests]

/-- `rst` stays low, and in the coming cycle the harness does what `H` does, whatever the waits of `H`. -/
def State.Stands (s : State) (H : Harness s.cfg) : Prop :=
  s.NoReset ∧ ∃ ws, s.harness.cycle s.bcu = ({ H with waits := ws } : Harness s.cfg).act

/-- A run from `s` presents the requests `ops` and comes to stand at `H`, with registers of which `P` holds. -/
def State.Arrives (s : State) (ops : List Instr) (P : Bcu s.cfg → Prop) (H : Harness s.cfg) : Prop :=
  ∃ (n : Nat) (u : Bcu s.cfg) (r : List Bool) (h : Harness s.cfg), runFor n s = .next ⟨s.cfg, u, r, h⟩ ∧
    requests (presented n s) = ops ∧ P u ∧ State.Stands ⟨s.cfg, u, r, h⟩ H

variable {s : State} {ops ops' : List Instr} {P Q : Bcu s.cfg → Prop} {H H' : Harness s.cfg}

theorem Ctl.start_ne_idle (q : Call c) : Ctl.start q ≠ .idle := by
  cases q <;> exact nofun

/-- The harness with the call at the head of the host's list taken up. -/
def State.calling (s : State) : Harness s.cfg := { s.harness with todo := s.harness.todo.tail }

theorem State.Calls.stands {q : Call s.cfg} (hq : s.Calls q) : s.Stands { s.calling with ctl := .start q } := by
  obtain ⟨hi, htodo, hr⟩ := hq
  refine ⟨hr, s.harness.waits, ?_⟩
  rw [Harness.cycle_of_call s.bcu hi (List.eq_cons_of_mem_head? htodo), Harness.act_of_running (Ctl.start_ne_idle q)]
  rfl

theorem State.Stands.arrives_refl (hs : s.Stands H) (hP : P s.bcu) : s.Arrives [] P H :=
  ⟨0, s.bcu, s.rst, s.harness, rfl, rfl, hP, hs⟩

theorem State.Arrives.mono (ha : s.Arrives ops P H) (hPQ : ∀ u, P u → Q u) : s.Arrives ops Q H := by
  obtain ⟨n, u, r, h, hrun, hops, hP, hstands⟩ := ha
  exact ⟨n, u, r, h, hrun, hops, hPQ u hP, hstands⟩

theorem State.Arrives.trans (ha : s.Arrives ops P H)
    (hb : ∀ u r h, P u → State.Stands ⟨s.cfg, u, r, h⟩ H → State.Arrives ⟨s.cfg, u, r, h⟩ ops' Q H') :
    s.Arrives (ops ++ ops') Q H' := by
  obtain ⟨n, u, r, h, hrun, hops, hP, hstands⟩ := ha
  obtain ⟨n', u', r', h', hrun', hops', hQ, hstands'⟩ := hb u r h hP hstands
  exact ⟨n + n', u', r', h', (runFor_add n n' hrun).trans hrun',
    by rw [presented_add n n' hrun, requests_append, hops, hops'], hQ, hstands'⟩

/-! ## One request of a running procedure -/

/-- After its wait cycles the procedure presents its operation, on registers that the NOPs have left but for DONE. -/
theorem State.Stands.runs (hs : s.Stands H) (hi : H.ctl.issued = false) (hn : H.ctl ≠ .idle)
    (hwf : WellFormed s.cfg H.present.1 = true) :
    ∃ n u r ws, (u = s.bcu ∨ u = s.bcu.nop) ∧ (∀ level ∈ r, level = false) ∧
      runFor n s = .next ⟨s.cfg, u.after H.present.1, r, { H.present.2 with waits := ws }⟩ ∧
      requests (presented n s) = requests [H.present.1] := by
  obtain ⟨hr, ws, hcycle⟩ := hs
  rw [Harness.act_of_running (h := { H with waits := ws }) hn] at hcycle
  obtain ⟨n, u, r, ws', hr', hu, hrun, hpres⟩ :=
    runFor_present ws s.bcu s.rst s.harness { H with waits := ws } hcycle hi hn rfl hr
  simp only [Harness.present_waits, decode_encode hwf] at hrun hpres
  rw [exec_eq_after] at hrun
  exact ⟨n + 1, u, r, ws', hu, hr', hrun, by rw [hpres, requests_append, requests_replicate_nop]; rfl⟩

theorem State.Stands.arrives (hs : s.Stands H) (hi : H.ctl.issued = false) (hn : H.ctl ≠ .idle)
    (hwf : WellFormed s.cfg H.present.1 = true)
    (hafter : ∀ u, u = s.bcu ∨ u = s.bcu.nop → P (u.after H.present.1) ∧
      H.present.2.readOutputs (u.after H.present.1) = H') :
    s.Arrives (requests [H.present.1]) P H' := by
  obtain ⟨n, u, r, ws, hu, hr, hrun, hops⟩ := hs.runs hi hn hwf
  obtain ⟨hP, hread⟩ := hafter u hu
  refine ⟨n, _, r, _, hrun, hops, hP, hr, ws, ?_⟩
  rw [Harness.cycle_eq_act, Harness.readOutputs_waits, hread]

/-! ## The end of a procedure -/

/-- The cycle in which a verdict is recorded; with nothing else to do the harness then rests. -/
theorem State.Stands.step_of_returns {v : Verdict s.cfg} (hs : s.Stands (H.returns v)) :
    ∃ u r h, step s = .next ⟨s.cfg, u, r, h⟩ ∧ h.verdicts = H.verdicts ++ [v] ∧
      (H.todo = [] → h.ctl = .idle ∧ h.todo = [] ∧ h.oracle = H.oracle ∧ decode s.cfg s.sample.1 = .nop) := by
  obtain ⟨-, ws, hcycle⟩ := hs
  have hverdicts := Harness.act_verdicts { H.returns v with waits := ws }
  rcases hact : Harness.act { H.returns v with waits := ws } with ⟨w, h⟩
  rw [hact] at hcycle hverdicts
  obtain ⟨u, hstep⟩ := step_of_cycle_eq s.harness s.rst hcycle
  refine ⟨u, _, h, hstep, hverdicts, fun htodo => ?_⟩
  obtain ⟨rfl, rfl⟩ := Prod.mk.inj (hact.symm.trans (Harness.act_of_idle rfl htodo))
  exact ⟨rfl, htodo, rfl, by rw [State.sample_word, hcycle, decode_encode_nop]⟩

theorem State.Arrives.returnsAfterCalls {v : Verdict s.cfg} {calls : List (CipherCall s.cfg)}
    (ha : s.Arrives ops P (H.returns v)) (hverdicts : H.verdicts = s.harness.verdicts)
    (htodo : H.todo = s.harness.todo.tail) (hcalls : H.oracle.calls = s.harness.oracle.calls ++ calls) :
    s.ReturnsAfterCalls v calls := by
  obtain ⟨n, u, r, h, hrun, -, -, hstands⟩ := ha
  obtain ⟨u', r', h', hstep, hv, hrest⟩ := hstands.step_of_returns
  refine ⟨n + 1, h', u', r', (runFor_add n 1 hrun).trans (runFor_one hstep), hverdicts ▸ hv, fun hnil => ?_⟩
  obtain ⟨-, -, horacle, -⟩ := hrest (htodo.trans hnil)
  rw [horacle, hcalls]

theorem State.Arrives.returns {v : Verdict s.cfg} (ha : s.Arrives ops P (H.returns v))
    (hverdicts : H.verdicts = s.harness.verdicts) : s.Returns v := by
  obtain ⟨n, u, r, h, hrun, -, -, hstands⟩ := ha
  obtain ⟨u', r', h', hstep, hv, -⟩ := hstands.step_of_returns
  exact ⟨n + 1, h', u', r', (runFor_add n 1 hrun).trans (runFor_one hstep), hverdicts ▸ hv⟩

/-- The requests of a whole procedure, where the host has nothing to do after it. -/
theorem State.Arrives.ends {v : Verdict s.cfg} (ha : s.Arrives ops P (H.returns v)) (htodo : H.todo = []) :
    ∃ n t, runFor n s = .next t ∧ t.harness.ctl = .idle ∧ requests (presented n s) = ops := by
  obtain ⟨n, u, r, h, hrun, hops, -, hstands⟩ := ha
  obtain ⟨u', r', h', hstep, -, hrest⟩ := hstands.step_of_returns
  obtain ⟨hidle, -, -, hnop⟩ := hrest htodo
  refine ⟨n + 1, _, (runFor_add n 1 hrun).trans (runFor_one hstep), hidle, ?_⟩
  rw [presented_add n 1 hrun, presented_succ hstep, hnop, requests_append, hops]
  exact List.append_nil ops

theorem runFor_total (n : Nat) (s : State) : ∃ t, runFor n s = .next t := by
  induction n generalizing s with
  | zero => exact ⟨s, rfl⟩
  | succ n ih =>
    obtain ⟨t, ht⟩ := ih (s.sample.2.withBcu s.nextBcu)
    exact ⟨t, (runFor_succ (step_eq_next s)).trans ht⟩

/-- What is presented in any number of cycles is presented in any larger number. -/
theorem mem_presented_add {i : Instr} {n : Nat} (hmem : i ∈ presented n s) (m : Nat) : i ∈ presented (n + m) s := by
  obtain ⟨t, ht⟩ := runFor_total n s
  rw [presented_add n m ht]
  exact List.mem_append_left _ hmem

/-- A procedure after which the host has nothing to do presents its requests and idle cycles for ever. -/
theorem State.Arrives.presents_only {v : Verdict s.cfg} (ha : s.Arrives ops P (H.returns v)) (htodo : H.todo = [])
    {n : Nat} {i : Instr} (hmem : i ∈ presented n s) : i = .nop ∨ i ∈ ops := by
  obtain ⟨m, u, r, h, hrun, hops, -, hstands⟩ := ha
  obtain ⟨u', r', h', hstep, -, hrest⟩ := hstands.step_of_returns
  obtain ⟨hidle, hnil, -, hnop⟩ := hrest htodo
  obtain ⟨-, -, -, hidles⟩ := runFor_of_idle h' hidle hnil n u' r'
  have hall : i ∈ presented (m + (n + 1)) s := by
    rw [show m + (n + 1) = n + (m + 1) by omega]; exact mem_presented_add hmem _
  rw [presented_add m (n + 1) hrun, presented_succ hstep, hnop, hidles, ← List.replicate_succ] at hall
  rcases List.mem_append.1 hall with hbefore | hafter
  · by_cases hi : i = .nop
    · exact .inl hi
    · exact .inr (hops ▸ List.mem_filter.2 ⟨hbefore, by simpa using hi⟩)
  · exact .inl (List.eq_of_mem_replicate hafter)

end Sys2Proof.Machine
end

section
/-! SUPPORT. The blocks of a buffer (R41, R44, R106, R124): how many there are, how long each is, and the bytes they
stand for. -/

namespace Sys2Proof.Machine

variable {len b k m : Nat}

/-! ## Counting blocks -/

/-- Block `k` exists exactly if the buffer reaches past its first byte: every comparison with the block count is one with a
multiple of the block size. -/
theorem lt_blockCount_iff (hb : 1 ≤ b) : k < blockCount len b ↔ k * b < len := by
  rw [blockCount, ← Nat.succ_le_iff, Nat.le_div_iff_mul_le hb, Nat.succ_mul]; omega

theorem blockCount_le_iff (hb : 1 ≤ b) : blockCount len b ≤ k ↔ len ≤ k * b := by
  rw [← Nat.not_lt, lt_blockCount_iff hb, Nat.not_lt]

theorem div_lt_blockCount (hb : 1 ≤ b) {i : Nat} (hi : i < len) : i / b < blockCount len b :=
  (lt_blockCount_iff hb).2 ((Nat.div_mul_le_self i b).trans_lt hi)

/-- The block-count check of DECODE accepts the block count and nothing else (R150, R151). -/
theorem blockCountOk_iff (hb : 1 ≤ b) (n : Nat) : blockCountOk n len b = true ↔ n = blockCount len b := by
  cases n with
  | zero =>
    have hzero : 0 < blockCount len b ↔ 0 * b < len := lt_blockCount_iff hb
    simp only [blockCountOk, decide_true, Bool.true_and, Bool.or_eq_true, Bool.and_eq_true, decide_eq_true_eq]
    omega
  | succ n =>
    have hlast : n < blockCount len b ↔ n * b < len := lt_blockCount_iff hb
    have hall : blockCount len b ≤ n + 1 ↔ len ≤ (n + 1) * b := blockCount_le_iff hb
    simp only [blockCountOk, Nat.add_sub_cancel, Bool.or_eq_true, Bool.and_eq_true, decide_eq_true_eq]
    omega

theorem chunkLen_le (len b k : Nat) : chunkLen len b k ≤ b := Nat.min_le_left _ _

theorem chunkLen_pos (hb : 1 ≤ b) (hk : k < blockCount len b) : 1 ≤ chunkLen len b k := by
  rw [lt_blockCount_iff hb] at hk
  rw [chunkLen]; omega

/-- DECODE unpacks each block at the length of its chunk (R124). -/
theorem blockWidth_eq_chunkLen (hb : 1 ≤ b) (hk : k < blockCount len b) :
    blockWidth len b (blockCount len b) k = chunkLen len b k := by
  have hstart := (lt_blockCount_iff hb).1 hk
  have hnext : k + 1 < blockCount len b ↔ (k + 1) * b < len := lt_blockCount_iff hb
  rw [Nat.succ_mul] at hnext
  rw [blockWidth, chunkLen]
  split
  · omega
  · rw [show blockCount len b - 1 = k by omega]; omega

/-! ## The bytes of the blocks, one after the other -/

/-- The bytes that the first `m` blocks hold, where block `k` holds byte `g k i` at its position `i`: by induction on `m`,
the byte at offset `i` is that of block `i / b` at position `i % b`. -/
theorem flatten_blocks (hb : 1 ≤ b) (g : Nat → Nat → Byte) (m : Nat) :
    ((List.range m).map fun k => (List.range (chunkLen len b k)).map (g k)).flatten =
      (List.range (min (m * b) len)).map fun i => g (i / b) (i % b) := by
  induction m with
  | zero => simp
  | succ m ih =>
    rw [List.range_succ, List.map_append, List.flatten_append, ih, List.map_singleton, List.flatten_singleton]
    rcases Nat.le_total len (m * b) with hend | hstart
    · rw [chunkLen, Nat.min_eq_right hend, Nat.sub_eq_zero_of_le hend, Nat.succ_mul,
        Nat.min_eq_right (hend.trans (Nat.le_add_right _ _))]
      simp
    · have hsplit : min ((m + 1) * b) len = m * b + chunkLen len b m := by
        rw [chunkLen, Nat.succ_mul]; omega
      rw [hsplit, List.range_add, Nat.min_eq_left hstart, List.map_append, List.map_map]
      congr 1
      refine List.map_congr_left fun i hi => ?_
      have hib : i < b := (List.mem_range.1 hi).trans_le (chunkLen_le len b m)
      simp [Nat.mul_comm m b, Nat.mul_add_div hb, Nat.div_eq_of_lt hib, Nat.mod_eq_of_lt hib]

theorem flatten_all_blocks (hb : 1 ≤ b) (g : Nat → Nat → Byte) :
    ((List.range (blockCount len b)).map fun k => (List.range (chunkLen len b k)).map (g k)).flatten =
      (List.range len).map fun i => g (i / b) (i % b) := by
  rw [flatten_blocks hb, Nat.min_eq_right ((blockCount_le_iff hb).1 le_rfl)]

/-! ## The images of integers -/

/-- The images of the first `m` integers at the lengths of their chunks, one after the other. -/
def imagesUpTo (ints : List Nat) (len b m : Nat) : List Byte :=
  ((List.range m).map fun k => bytesBe (ints.getD k 0) (chunkLen len b k)).flatten

theorem imagesUpTo_succ (ints : List Nat) (len b m : Nat) :
    imagesUpTo ints len b (m + 1) = imagesUpTo ints len b m ++ bytesBe (ints.getD m 0) (chunkLen len b m) := by
  simp [imagesUpTo, List.range_succ]

theorem imagesUpTo_blockCount (ints : List Nat) (len b : Nat) :
    imagesUpTo ints len b (blockCount len b) = imageBytes ints len b := rfl

theorem imageBytes_eq (hb : 1 ≤ b) (ints : List Nat) :
    imageBytes ints len b =
      (List.range len).map fun i => byteBe (ints.getD (i / b) 0) (chunkLen len b (i / b)) (i % b) :=
  flatten_all_blocks hb fun k => byteBe (ints.getD k 0) (chunkLen len b k)

/-- The bytes depend on the integers of the blocks alone. -/
theorem imageBytes_congr {ints ints' : List Nat} (h : ∀ k < blockCount len b, ints.getD k 0 = ints'.getD k 0) :
    imageBytes ints len b = imageBytes ints' len b :=
  congrArg List.flatten (List.map_congr_left fun k hk => by rw [h k (List.mem_range.1 hk)])

theorem imageBytes_length (hb : 1 ≤ b) (ints : List Nat) : (imageBytes ints len b).length = len := by
  simp [imageBytes_eq hb]

theorem imageBytes_getD (hb : 1 ≤ b) (ints : List Nat) {i : Nat} (hi : i < len) :
    (imageBytes ints len b).getD i 0 = byteBe (ints.getD (i / b) 0) (chunkLen len b (i / b)) (i % b) := by
  simp [imageBytes_eq hb, hi]

/-! ## The chunks of a buffer -/

theorem chunk_length (buf : List Byte) (b k : Nat) : (chunk buf b k).length = chunkLen buf.length b k := by
  simp [chunk, memRead, chunkLen]

theorem chunk_getD (buf : List Byte) {i : Nat} (hi : i < chunkLen buf.length b k) :
    (chunk buf b k).getD i 0 = buf.getD (k * b + i) 0 := by
  simp [chunk, memRead, List.getD_eq_getElem?_getD, hi]

/-- The integer of a block, as the value of the bytes at its offsets. -/
theorem blockInt_eq (buf : List Byte) (b k : Nat) :
    blockInt buf b k = be (fun i => buf.getD (k * b + i) 0) (chunkLen buf.length b k) := by
  rw [blockInt, beValue, chunk_length]
  exact be_congr fun i hi => chunk_getD buf hi

theorem blockInt_lt (buf : List Byte) (b k : Nat) : blockInt buf b k < 2 ^ (8 * chunkLen buf.length b k) := by
  rw [blockInt_eq]; exact be_lt_two_pow _ _

theorem blockInt_lt_modulus (buf : List Byte) {p : Nat} (hp : 256 ≤ p) (k : Nat) :
    blockInt buf (bszOf p) k < p := by
  rw [blockInt_eq]; exact be_lt_of_le_bszOf _ hp (chunkLen_le _ _ _)

/-- Byte `i` of the buffer is the byte of its block's integer at its position in the block. -/
theorem byteBe_blockInt (hb : 1 ≤ b) (buf : List Byte) {i : Nat} (hi : i < buf.length) :
    byteBe (blockInt buf b (i / b)) (chunkLen buf.length b (i / b)) (i % b) = buf.getD i 0 := by
  have hmod : i % b < b := Nat.mod_lt i hb
  have hdiv : i / b * b + i % b = i := Nat.div_add_mod' i b
  have hpos : i % b < chunkLen buf.length b (i / b) := by rw [chunkLen]; omega
  rw [blockInt_eq, byteBe_be _ hpos, hdiv]

theorem blockInts_length (buf : List Byte) (b : Nat) : (blockInts buf b).length = blockCount buf.length b := by
  simp [blockInts]

theorem blockInts_getD (buf : List Byte) (hk : k < blockCount buf.length b) :
    (blockInts buf b).getD k 0 = blockInt buf b k := by
  simp [blockInts, hk]

/-- The images of a buffer's own integers are the buffer (R159). -/
theorem imageBytes_blockInts (hb : 1 ≤ b) (buf : List Byte) : imageBytes (blockInts buf b) buf.length b = buf := by
  rw [imageBytes_eq hb]
  refine List.ext_getElem (by simp) fun i _ hi => ?_
  rw [List.getElem_map, List.getElem_range, blockInts_getD buf (div_lt_blockCount hb hi), byteBe_blockInt hb buf hi,
    List.getD_eq_getElem _ _ hi]

end Sys2Proof.Machine
end

section
/-! SUPPORT. The run of ENCODE (R141, R142, R143): its CFG, and one PACK for each block. -/

namespace Sys2Proof.Machine

variable {c : Params}

/-! ## Registers of a run without an error -/

/-- The registers within a run of the modulus `p` that no error has ended. -/
def Bcu.Runs (p : BitVec c.pw) (u : Bcu c) : Prop :=
  u.err = ErrCode.none.code ∧ u.cfgd = true ∧ u.p = p ∧ u.bsz.toNat = bszOf p.toNat

theorem Bcu.runs_configure {p : BitVec c.pw} (hp : 256 ≤ p.toNat) : (Bcu.configure c p).Runs p := by
  obtain ⟨hcfgd, herr, -⟩ := Bcu.configure_of_ge hp
  exact ⟨herr, hcfgd, rfl, bsc_bszO_toNat p⟩

/-- The wait cycles before a request leave a run as it is. -/
theorem Bcu.Runs.of_waits {p : BitVec c.pw} {u u' : Bcu c} (hu : u.Runs p) (h : u' = u ∨ u' = u.nop) : u'.Runs p := by
  rcases h with rfl | rfl <;> exact hu

theorem lt_two_pow_lw {n : Nat} (hn : n ≤ c.bmax) : n < 2 ^ c.lw := hn.trans_lt (lt_two_pow_bitlen c.bmax)

theorem Bcu.Runs.admits {p : BitVec c.pw} {u : Bcu c} (hu : u.Runs p) {n : Nat} (hpos : 1 ≤ n)
    (hle : n ≤ bszOf p.toNat) : u.Admits (lenOperand c n) := by
  obtain ⟨herr, hcfgd, -, hbsz⟩ := hu
  have hlen : (lenOperand c n).toNat = n := lenOperand_toNat_of_lt (lt_two_pow_lw (hle.trans (bszOf_le_bmax p)))
  exact ⟨herr, hcfgd, hlen.symm ▸ hpos, by rwa [hlen, hbsz]⟩

/-- The registers an operation leaves are those of the state that `exec` answers. -/
theorem Bcu.after_of_exec {i : Instr} {u v : Bcu c}
    (h : exec i ⟨c, u, [], Harness.rest c⟩ = .next ⟨c, v, [], Harness.rest c⟩) : u.after i = v := by
  rw [exec_eq_after] at h
  simpa using Host.Outcome.next.inj h

/-! ## Leaving the control point -/

theorem Harness.encodeDone_ctl (h : Harness c) (k : Ctl c) (e : EncodeJob c) (v : Verdict c) :
    ({ h with ctl := k } : Harness c).encodeDone e v = h.encodeDone e v := by
  unfold Harness.encodeDone; split <;> rfl

theorem Harness.encodeLoop_ctl (h : Harness c) (k : Ctl c) (e : EncodeJob c) :
    ({ h with ctl := k } : Harness c).encodeLoop e = h.encodeLoop e := by
  unfold Harness.encodeLoop
  split
  · rfl
  · exact h.encodeDone_ctl k e _

theorem Harness.encodeConfigured_ctl (h : Harness c) (k : Ctl c) (e : EncodeJob c) (u : Bcu c) :
    ({ h with ctl := k } : Harness c).encodeConfigured e u = h.encodeConfigured e u := by
  unfold Harness.encodeConfigured
  split_ifs
  · rfl
  · rfl
  · rfl
  · exact h.encodeLoop_ctl k _

/-! ## CFG -/

theorem Harness.encodeConfigured_of_lt (h : Harness c) (e : EncodeJob c) {p : BitVec c.pw} (hp : p.toNat < 256) :
    h.encodeConfigured e (Bcu.configure c p) = h.returns (.fail 1 0) :=
  if_pos (Bcu.configure_of_lt hp).2.1

theorem Harness.encodeConfigured_of_ge (h : Harness c) (e : EncodeJob c) {p : BitVec c.pw} (hp : 256 ≤ p.toNat) :
    h.encodeConfigured e (Bcu.configure c p) =
      if 2 ^ c.iw < blockCount e.buf.length (bszOf p.toNat) then h.returns .refused
      else h.encodeLoop { e with b := bszOf p.toNat, k := 0, ints := [] } := by
  obtain ⟨herr, -, -, hbsz⟩ := Bcu.runs_configure hp
  have hsized : bszOf p.toNat ≠ 0 := by rw [Ne, bszOf_eq_zero_iff]; omega
  rw [Harness.encodeConfigured, herr, hbsz, if_neg (by decide), if_neg hsized]
  rfl

theorem Harness.present_encodeCfg (h : Harness c) (e : EncodeJob c) :
    ({ h with ctl := .encodeCfg e } : Harness c).present =
      (.cfg e.p.toNat, { h with ctl := .encodeCfgIssued e }) := rfl

variable {s : State} {H : Harness s.cfg}

theorem State.Stands.encodeCfg {e : EncodeJob s.cfg} (hs : s.Stands { H with ctl := .encodeCfg e }) :
    s.Arrives [.cfg e.p.toNat] (· = Bcu.configure s.cfg e.p)
      (H.encodeConfigured e (Bcu.configure s.cfg e.p)) := by
  refine hs.arrives rfl nofun ((wellFormed_cfg_iff _).2 e.p.isLt) fun u _ => ?_
  rw [Harness.present_encodeCfg, after_cfg]
  exact ⟨rfl, H.encodeConfigured_ctl _ e _⟩

/-! ## PACK -/

/-- The request for block `k` of a buffer (R141). -/
def packOf (c : Params) (buf : List Byte) (b k : Nat) : Instr :=
  .pack k (chunkLen buf.length b k) (chunkLanes c (chunk buf b k))

/-- The integers of the first `m` blocks, in the width of RES_INT. -/
def blockWords (c : Params) (buf : List Byte) (b m : Nat) : List (BitVec c.pw) :=
  (List.range m).map fun k => BitVec.ofNat c.pw (blockInt buf b k)

/-- ENCODE at the head of its loop, before block `m`. -/
def encodeJob (buf : List Byte) (p : BitVec c.pw) (caller : Option (VerifyArgs c × Keys)) (m : Nat) : EncodeJob c :=
  ⟨buf, p, bszOf p.toNat, m, blockWords c buf (bszOf p.toNat) m, caller⟩

theorem Harness.present_encodePack (h : Harness c) (buf : List Byte) (p : BitVec c.pw)
    (caller : Option (VerifyArgs c × Keys)) (m : Nat) :
    ({ h with ctl := .encodePack (encodeJob buf p caller m) } : Harness c).present =
      (packOf c buf (bszOf p.toNat) m, { h with ctl := .encodePackIssued (encodeJob buf p caller m) }) := rfl

theorem Harness.encodePacked_ctl (h : Harness c) (k : Ctl c) (e : EncodeJob c) (u : Bcu c) :
    ({ h with ctl := k } : Harness c).encodePacked e u = h.encodePacked e u := by
  unfold Harness.encodePacked
  split_ifs
  · rfl
  · exact h.encodeLoop_ctl k _

theorem blockWords_toNat (buf : List Byte) {p : BitVec c.pw} (hp : 256 ≤ p.toNat) :
    (blockWords c buf (bszOf p.toNat) (blockCount buf.length (bszOf p.toNat))).map BitVec.toNat =
      blockInts buf (bszOf p.toNat) := by
  rw [blockWords, List.map_map]
  refine List.map_congr_left fun k _ => ?_
  exact Nat.mod_eq_of_lt ((blockInt_lt_modulus buf hp k).trans p.isLt)

theorem wellFormed_packOf (buf : List Byte) (p : BitVec c.pw) {k : Nat} (hk : k < 2 ^ c.iw) :
    WellFormed c (packOf c buf (bszOf p.toNat) k) = true :=
  (wellFormed_pack_iff _ _ _).2
    ⟨hk, lt_two_pow_lw ((chunkLen_le _ _ _).trans (bszOf_le_bmax p)), by simp [chunkLanes]⟩

/-- PACK of a block of the run completes with the block's integer (R106). -/
theorem Bcu.Runs.after_packOf {p : BitVec c.pw} {u : Bcu c} (hu : u.Runs p) (hp : 256 ≤ p.toNat) (buf : List Byte)
    {k : Nat} (hk : k < blockCount buf.length (bszOf p.toNat)) :
    u.after (packOf c buf (bszOf p.toNat) k) =
      { u with resInt := BitVec.ofNat c.pw (blockInt buf (bszOf p.toNat) k), done := true } := by
  have hsized : 1 ≤ bszOf p.toNat := (le_bszOf_iff le_rfl _).2 hp
  have hle : chunkLen buf.length (bszOf p.toNat) k ≤ bszOf p.toNat := chunkLen_le _ _ _
  have hmax := hle.trans (bszOf_le_bmax p)
  have hvalue : be (fun i => (chunkLanes c (chunk buf (bszOf p.toNat) k)).getD i 0)
      (chunkLen buf.length (bszOf p.toNat) k) = blockInt buf (bszOf p.toNat) k := by
    rw [blockInt, beValue, chunk_length]
    exact be_congr fun i hi => by simp [chunkLanes, hi.trans_le hmax]
  have hup : u.p = p := hu.2.2.1
  obtain ⟨v, hv, hexec⟩ := exec_pack_completes (s := ⟨c, u, [], Harness.rest c⟩)
    (lanes := chunkLanes c (chunk buf (bszOf p.toNat) k)) (hu.admits (chunkLen_pos hsized hk) hle) (lt_two_pow_lw hmax)
    hmax (by rw [hvalue, hup]; exact blockInt_lt_modulus buf hp k) k
  rw [hvalue] at hv
  rw [← hv, BitVec.ofNat_toNat, BitVec.setWidth_eq]
  exact Bcu.after_of_exec hexec

theorem State.Stands.encodePack {buf : List Byte} {p : BitVec s.cfg.pw} {caller : Option (VerifyArgs s.cfg × Keys)}
    {m : Nat} (hs : s.Stands (H.encodeLoop (encodeJob buf p caller m))) (hu : s.bcu.Runs p) (hp : 256 ≤ p.toNat)
    (hm : m < blockCount buf.length (bszOf p.toNat)) (hidx : m < 2 ^ s.cfg.iw) :
    s.Arrives [packOf s.cfg buf (bszOf p.toNat) m] (·.Runs p) (H.encodeLoop (encodeJob buf p caller (m + 1))) := by
  have hloop : H.encodeLoop (encodeJob buf p caller m) = { H with ctl := .encodePack (encodeJob buf p caller m) } :=
    if_pos hm
  rw [hloop] at hs
  refine hs.arrives rfl nofun (wellFormed_packOf buf p hidx) fun u hwaits => ?_
  have hrun := hu.of_waits hwaits
  have hnext : encodeJob buf p caller (m + 1) = { encodeJob buf p caller m with
      k := m + 1, ints := (encodeJob buf p caller m).ints ++ [BitVec.ofNat _ (blockInt buf (bszOf p.toNat) m)] } := by
    simp [encodeJob, blockWords, List.range_succ]
  rw [Harness.present_encodePack, hrun.after_packOf hp buf hm]
  refine ⟨hrun, (H.encodePacked_ctl _ (encodeJob buf p caller m) _).trans ?_⟩
  rw [Harness.encodePacked, if_neg (not_not.2 hrun.1), hnext]
  rfl

/-! ## The whole of ENCODE -/

/-- After its CFG and `m` PACKs, ENCODE stands before block `m` with the integers of the blocks before: by induction on
`m`. -/
theorem State.Stands.encode_upTo {buf : List Byte} {p : BitVec s.cfg.pw} {caller : Option (VerifyArgs s.cfg × Keys)}
    (hs : s.Stands { H with ctl := .encodeCfg ⟨buf, p, 0, 0, [], caller⟩ }) (hp : 256 ≤ p.toNat)
    (hcount : blockCount buf.length (bszOf p.toNat) ≤ 2 ^ s.cfg.iw) {m : Nat}
    (hm : m ≤ blockCount buf.length (bszOf p.toNat)) :
    s.Arrives (.cfg p.toNat :: (List.range m).map (packOf s.cfg buf (bszOf p.toNat))) (·.Runs p)
      (H.encodeLoop (encodeJob buf p caller m)) := by
  induction m with
  | zero =>
    have hcfg := hs.encodeCfg
    rw [Harness.encodeConfigured_of_ge _ _ hp, if_neg (Nat.not_lt.2 hcount)] at hcfg
    exact hcfg.mono fun u hu => hu ▸ Bcu.runs_configure hp
  | succ m ih =>
    rw [List.range_succ, List.map_append, ← List.cons_append]
    exact (ih (Nat.le_of_succ_le hm)).trans fun u r h hu hstands =>
      hstands.encodePack hu hp hm (Nat.lt_of_lt_of_le hm hcount)

/-- ENCODE ends with OK and the block sequence. -/
theorem State.Stands.encode {buf : List Byte} {p : BitVec s.cfg.pw} {caller : Option (VerifyArgs s.cfg × Keys)}
    (hs : s.Stands { H with ctl := .encodeCfg ⟨buf, p, 0, 0, [], caller⟩ }) (hp : 256 ≤ p.toNat)
    (hcount : blockCount buf.length (bszOf p.toNat) ≤ 2 ^ s.cfg.iw) :
    s.Arrives (.cfg p.toNat :: (List.range (blockCount buf.length (bszOf p.toNat))).map
        (packOf s.cfg buf (bszOf p.toNat))) (·.Runs p)
      (H.encodeDone (encodeJob buf p caller (blockCount buf.length (bszOf p.toNat)))
        (.okInts (blockWords s.cfg buf (bszOf p.toNat) (blockCount buf.length (bszOf p.toNat))))) := by
  have hloop := hs.encode_upTo hp hcount le_rfl
  rwa [Harness.encodeLoop, if_neg (by exact Nat.lt_irrefl _)] at hloop

/-- ENCODE of more blocks than the index can name ends after its CFG (R143). -/
theorem State.Stands.encode_refused {e : EncodeJob s.cfg} (hs : s.Stands { H with ctl := .encodeCfg e })
    (hp : 256 ≤ e.p.toNat) (hcount : 2 ^ s.cfg.iw < blockCount e.buf.length (bszOf e.p.toNat)) :
    s.Arrives [.cfg e.p.toNat] (fun _ => True) (H.returns .refused) := by
  have hcfg := hs.encodeCfg
  rw [Harness.encodeConfigured_of_ge _ _ hp, if_pos hcount] at hcfg
  exact hcfg.mono fun _ _ => trivial

/-- ENCODE with a modulus below 256 ends after its CFG (R141). -/
theorem State.Stands.encode_config {e : EncodeJob s.cfg} (hs : s.Stands { H with ctl := .encodeCfg e })
    (hp : e.p.toNat < 256) : s.Arrives [.cfg e.p.toNat] (fun _ => True) (H.returns (.fail 1 0)) := by
  have hcfg := hs.encodeCfg
  rw [Harness.encodeConfigured_of_lt _ _ hp] at hcfg
  exact hcfg.mono fun _ _ => trivial

end Sys2Proof.Machine
end

section
/-! SUPPORT. With a modulus below 256, what ENCODE presents does not depend on its buffer (R142). -/

namespace Sys2Proof.Machine

variable {c : Params}

/-- Two harnesses that do the same in the coming cycle present the same operations. -/
theorem presented_of_cycle_eq {u : Bcu c} {h h' : Harness c} (hcycle : h.cycle u = h'.cycle u) (r : List Bool)
    (n : Nat) : presented n ⟨c, u, r, h⟩ = presented n ⟨c, u, r, h'⟩ := by
  cases n with
  | zero => rfl
  | succ n =>
    have hstep : step ⟨c, u, r, h⟩ = step ⟨c, u, r, h'⟩ := by
      simp only [step, State.sample, hcycle]; rfl
    simp only [presented, hstep, State.sample_word, hcycle]

/-- Two harnesses that present one word in the coming cycle present the same operations if they do so from then on. -/
theorem presented_succ_congr {u : Bcu c} {r : List Bool} {h h' g g' : Harness c} {w : BitVec c.rw} {n : Nat}
    (hr : ∀ level ∈ r, level = false) (hh : h.cycle u = (w, g)) (hh' : h'.cycle u = (w, g'))
    (hnext : presented n ⟨c, u.after (decode c w), r.tail, g⟩ = presented n ⟨c, u.after (decode c w), r.tail, g'⟩) :
    presented (n + 1) ⟨c, u, r, h⟩ = presented (n + 1) ⟨c, u, r, h'⟩ := by
  rw [presented_succ ((step_of_cycle hr hh).trans (exec_eq_after _ _)),
    presented_succ ((step_of_cycle hr hh').trans (exec_eq_after _ _))]
  simp only [State.sample_word, hh, hh']
  exact congrArg _ hnext

/-- Two runs of ENCODE that present CFG of one modulus below 256: after it both return FAIL(CONFIG, 0) and have nothing
left that differs. -/
theorem presented_encodeCfgIssued {H : Harness c} {e e' : EncodeJob c} {u : Bcu c} {r : List Bool} {h h' : Harness c}
    (hp : e.p.toNat < 256) (hsame : e'.p = e.p) (hr : ∀ level ∈ r, level = false)
    (hh : h.cycle u = (encode c (.cfg e.p.toNat), { H with ctl := .encodeCfgIssued e }))
    (hh' : h'.cycle u = (encode c (.cfg e'.p.toNat), { H with ctl := .encodeCfgIssued e' })) (n : Nat) :
    presented (n + 1) ⟨c, u, r, h⟩ = presented (n + 1) ⟨c, u, r, h'⟩ := by
  rw [hsame] at hh'
  refine presented_succ_congr hr hh hh' (presented_of_cycle_eq ?_ _ n)
  rw [decode_encode_cfg, after_cfg, Harness.cycle_eq_act, Harness.cycle_eq_act]
  exact congrArg Harness.act ((Harness.encodeConfigured_of_lt _ e hp).trans
    (Harness.encodeConfigured_of_lt _ e' hp).symm)

/-- Two runs of ENCODE of one modulus below 256 present the same operations, by induction on the wait cycles before the
CFG. -/
theorem presented_encode_config (H : Harness c) {e e' : EncodeJob c} (hp : e.p.toNat < 256) (hsame : e'.p = e.p)
    (ws : List Bool) : ∀ (u : Bcu c) (r : List Bool) (h h' : Harness c) (n : Nat), (∀ level ∈ r, level = false) →
      h.cycle u = ({ H with ctl := .encodeCfg e, waits := ws } : Harness c).proceed →
      h'.cycle u = ({ H with ctl := .encodeCfg e', waits := ws } : Harness c).proceed →
      presented n ⟨c, u, r, h⟩ = presented n ⟨c, u, r, h'⟩ := by
  induction ws with
  | nil =>
    intro u r h h' n hr hh hh'
    cases n with
    | zero => rfl
    | succ n => exact presented_encodeCfgIssued (H := { H with waits := [] }) hp hsame hr hh hh' n
  | cons wait ws ih =>
    intro u r h h' n hr hh hh'
    cases n with
    | zero => rfl
    | succ n =>
      cases wait with
      | false => exact presented_encodeCfgIssued (H := { H with waits := ws }) hp hsame hr hh hh' n
      | true =>
        refine presented_succ_congr hr hh hh' (ih _ _ _ _ n (fun l hl => hr l (List.mem_of_mem_tail hl)) ?_ ?_)
        · exact Harness.cycle_of_running (h := { H with ctl := .encodeCfg e, waits := ws }) _ rfl nofun
        · exact Harness.cycle_of_running (h := { H with ctl := .encodeCfg e', waits := ws }) _ rfl nofun

end Sys2Proof.Machine
end

section
/-! PROOFS. ENCODE (43_round_trip_verifier.md R141, R142). -/

namespace Sys2Proof.Proofs

open Sys2Proof Sys2Proof.Machine

/-- Settles O41: ENCODE ends with the integers of the blocks (`State.Stands.encode`), which fit the lengths of their
chunks and so stay below the modulus. -/
theorem encodeReturnsBlockSequence : Obligations.EncodeReturnsBlockSequence := by
  intro s buf p hcalls hp hcount
  have htoNat := blockWords_toNat (c := s.cfg) buf hp
  refine ⟨_, State.Arrives.returns (State.Stands.encode (H := s.calling) hcalls.stands hp hcount) rfl, htoNat,
    fun k hk => ⟨?_, ?_⟩⟩
  · have hword : ((blockWords s.cfg buf (bszOf p.toNat) (blockCount buf.length (bszOf p.toNat))).getD k 0).toNat =
        blockInt buf (bszOf p.toNat) k := by
      rw [← blockInts_getD buf hk, ← htoNat]
      simp [blockWords, hk]
    rw [hword]
    exact blockInt_lt buf _ k
  · exact (Nat.pow_le_pow_right Nat.two_pos (Nat.mul_le_mul_left 8 (chunkLen_le _ _ _))).trans (two_pow_bszOf_le hp)

/-- Settles O44: the requests of `State.Stands.encode`. -/
theorem encodePresentsOnePackPerBlock : Obligations.EncodePresentsOnePackPerBlock := by
  intro s buf p hcalls htodo hp hcount
  exact State.Arrives.ends (State.Stands.encode (H := s.calling) hcalls.stands hp hcount) (congrArg List.tail htodo)

/-- Settles O43: the two machines start ENCODE of one modulus with different buffers (`presented_encode_config`). -/
theorem configErrorReadsNoByte : Obligations.ConfigErrorReadsNoByte := by
  intro c u r h buf buf' p n hidle hp hr
  exact presented_encode_config { h with todo := [] } (e := ⟨buf, p, 0, 0, [], none⟩)
    (e' := ⟨buf', p, 0, 0, [], none⟩) hp rfl h.waits u r _ _ n hr
    (Harness.cycle_of_call (h := { h with todo := [.call (.encode buf p)] }) u hidle rfl)
    (Harness.cycle_of_call (h := { h with todo := [.call (.encode buf' p)] }) u hidle rfl)

end Sys2Proof.Proofs
end

section
/-! SUPPORT. The run of DECODE (R143, R150, R151): its CFG, and one UNPACK for each block up to the first that fails. -/

namespace Sys2Proof.Machine

variable {c : Params}

/-! ## Leaving the control point -/

theorem Harness.decodeDone_ctl (h : Harness c) (k : Ctl c) (d : DecodeJob c) (v : Verdict c) :
    ({ h with ctl := k } : Harness c).decodeDone d v = h.decodeDone d v := by
  unfold Harness.decodeDone; split <;> rfl

theorem Harness.decodeLoop_ctl (h : Harness c) (k : Ctl c) (d : DecodeJob c) :
    ({ h with ctl := k } : Harness c).decodeLoop d = h.decodeLoop d := by
  unfold Harness.decodeLoop
  split
  · rfl
  · exact h.decodeDone_ctl k d _

theorem Harness.decodeConfigured_ctl (h : Harness c) (k : Ctl c) (d : DecodeJob c) (u : Bcu c) :
    ({ h with ctl := k } : Harness c).decodeConfigured d u = h.decodeConfigured d u := by
  unfold Harness.decodeConfigured
  split_ifs
  · rfl
  · rfl
  · rfl
  · exact h.decodeLoop_ctl k _

theorem Harness.decodeUnpacked_ctl (h : Harness c) (k : Ctl c) (d : DecodeJob c) (u : Bcu c) :
    ({ h with ctl := k } : Harness c).decodeUnpacked d u = h.decodeUnpacked d u := by
  unfold Harness.decodeUnpacked
  split_ifs
  · rfl
  · exact h.decodeLoop_ctl k _

/-! ## CFG -/

theorem Harness.decodeConfigured_of_lt (h : Harness c) (d : DecodeJob c) {p : BitVec c.pw} (hp : p.toNat < 256) :
    h.decodeConfigured d (Bcu.configure c p) = h.returns (.fail 1 0) :=
  if_pos (Bcu.configure_of_lt hp).2.1

theorem Harness.decodeConfigured_of_ge (h : Harness c) (d : DecodeJob c) {p : BitVec c.pw} (hp : 256 ≤ p.toNat) :
    h.decodeConfigured d (Bcu.configure c p) =
      if d.ints.length ≠ blockCount d.len (bszOf p.toNat) then h.returns (.fail 8 0)
      else if 2 ^ c.iw < d.ints.length then h.returns .refused
      else h.decodeLoop { d with b := bszOf p.toNat, k := 0, out := [] } := by
  obtain ⟨herr, -, -, hbsz⟩ := Bcu.runs_configure hp
  have hsized : 1 ≤ bszOf p.toNat := (le_bszOf_iff le_rfl _).2 hp
  have hcheck : (!blockCountOk d.ints.length d.len (bszOf p.toNat)) = true ↔
      d.ints.length ≠ blockCount d.len (bszOf p.toNat) := by
    rw [Bool.not_eq_true', ← Bool.not_eq_true, blockCountOk_iff hsized]
  rw [Harness.decodeConfigured, herr, hbsz, if_neg (by decide)]
  simp only [hcheck]
  rfl

theorem Harness.present_decodeCfg (h : Harness c) (d : DecodeJob c) :
    ({ h with ctl := .decodeCfg d } : Harness c).present =
      (.cfg d.p.toNat, { h with ctl := .decodeCfgIssued d }) := rfl

variable {s : State} {H : Harness s.cfg}

theorem State.Stands.decodeCfg {d : DecodeJob s.cfg} (hs : s.Stands { H with ctl := .decodeCfg d }) :
    s.Arrives [.cfg d.p.toNat] (· = Bcu.configure s.cfg d.p)
      (H.decodeConfigured d (Bcu.configure s.cfg d.p)) := by
  refine hs.arrives rfl nofun ((wellFormed_cfg_iff _).2 d.p.isLt) fun u _ => ?_
  rw [Harness.present_decodeCfg, after_cfg]
  exact ⟨rfl, H.decodeConfigured_ctl _ d _⟩

/-! ## UNPACK -/

/-- The request for block `k` of `len` bytes (R150). -/
def unpackOf (c : Params) (ints : List Nat) (len b k : Nat) : Instr :=
  .unpack k (chunkLen len b k) (portInt c (ints.getD k 0))

/-- DECODE at the head of its loop, before block `m`. -/
def decodeJob (ints : List Nat) (p : BitVec c.pw) (len : Nat) (caller : Option (List Byte)) (m : Nat) : DecodeJob c :=
  ⟨ints, p, len, bszOf p.toNat, m, imagesUpTo ints len (bszOf p.toNat) m, caller⟩

/-- The integer of block `k` is below the modulus and within the length of its chunk. -/
def BlockFits (ints : List Nat) (p len k : Nat) : Prop :=
  ints.getD k 0 < p ∧ ints.getD k 0 < 2 ^ (8 * chunkLen len (bszOf p) k)

/-- The widths of a DECODE of the right number of integers are the lengths of the chunks (R124). -/
theorem blockWidth_length {ints : List Nat} {p len k : Nat} (hp : 256 ≤ p)
    (hcount : ints.length = blockCount len (bszOf p)) (hk : k < ints.length) :
    blockWidth len (bszOf p) ints.length k = chunkLen len (bszOf p) k := by
  rw [hcount, blockWidth_eq_chunkLen ((le_bszOf_iff le_rfl _).2 hp) (hcount ▸ hk)]

theorem blockFits_of_width {ints : List Nat} {p len k : Nat} (hp : 256 ≤ p)
    (hcount : ints.length = blockCount len (bszOf p)) (hk : k < ints.length)
    (hfits : ints.getD k 0 < p ∧ ints.getD k 0 < 2 ^ (8 * blockWidth len (bszOf p) ints.length k)) :
    BlockFits ints p len k := by
  rwa [blockWidth_length hp hcount hk] at hfits

/-- A buffer's own integers fit. -/
theorem blockFits_blockInts {buf : List Byte} {p : Nat} (hp : 256 ≤ p) :
    ∀ k < (blockInts buf (bszOf p)).length, BlockFits (blockInts buf (bszOf p)) p buf.length k := by
  intro k hk
  rw [blockInts_length] at hk
  rw [BlockFits, blockInts_getD buf hk]
  exact ⟨blockInt_lt_modulus buf hp k, blockInt_lt buf _ k⟩

theorem decodeJob_width {ints : List Nat} {p : BitVec c.pw} {len k : Nat} (caller : Option (List Byte))
    (hp : 256 ≤ p.toNat) (hcount : ints.length = blockCount len (bszOf p.toNat)) (hk : k < ints.length) :
    (decodeJob ints p len caller k).width = chunkLen len (bszOf p.toNat) k :=
  blockWidth_length hp hcount hk

theorem wellFormed_unpackOf (ints : List Nat) (p : BitVec c.pw) (len : Nat) {k : Nat} (hk : k < 2 ^ c.iw) :
    WellFormed c (unpackOf c ints len (bszOf p.toNat) k) = true :=
  (wellFormed_unpack_iff _ _ _).2
    ⟨hk, lt_two_pow_lw ((chunkLen_le _ _ _).trans (bszOf_le_bmax p)), portInt_lt c _⟩

/-- The lanes of an image are appended to the output as its bytes (R42). -/
theorem memWrite_unpackerLanes (out : List Byte) (m : Nat) {w : Nat} (hw : w ≤ c.bmax) :
    memWrite out w (unpackerLanes c m w) = out ++ bytesBe m w := by
  refine congrArg (out ++ ·) (List.map_congr_left fun i hi => ?_)
  have hiw := List.mem_range.1 hi
  rw [lane_unpackerLanes m w (hiw.trans_le hw), if_pos hiw]

section

variable {p : BitVec c.pw} {u : Bcu c} {ints : List Nat} {len k : Nat}

/-- UNPACK of a block that fits completes with the image of its integer (R125). -/
theorem Bcu.Runs.after_unpackOf (hu : u.Runs p) (hp : 256 ≤ p.toNat) (hk : k < blockCount len (bszOf p.toNat))
    (hfits : BlockFits ints p.toNat len k) :
    u.after (unpackOf c ints len (bszOf p.toNat) k) =
      { u with
        resBytes := unpackerLanes c (ints.getD k 0) (chunkLen len (bszOf p.toNat) k)
        resLen := lenOperand c (chunkLen len (bszOf p.toNat) k)
        done := true } := by
  obtain ⟨hlt, hlen⟩ := hfits
  have hsized : 1 ≤ bszOf p.toNat := (le_bszOf_iff le_rfl _).2 hp
  have hle : chunkLen len (bszOf p.toNat) k ≤ bszOf p.toNat := chunkLen_le _ _ _
  have hmax := hle.trans (bszOf_le_bmax p)
  have hup : u.p = p := hu.2.2.1
  rw [unpackOf, portInt_of_lt hlt]
  exact Bcu.after_of_exec (exec_unpack_completes (s := ⟨c, u, [], Harness.rest c⟩)
    (hu.admits (chunkLen_pos hsized hk) hle) (lt_two_pow_lw hmax) hmax (hup.symm ▸ hlt) hlen k)

/-- What UNPACKER reports of a block of the run (R120). -/
theorem Bcu.Runs.unpacker_unpackOf (hu : u.Runs p) (hp : 256 ≤ p.toNat) (hk : k < blockCount len (bszOf p.toNat))
    (m : Nat) :
    (unpacker c (intOperand c (portInt c m)) (lenOperand c (chunkLen len (bszOf p.toNat) k)).toNat u.p).rangeErr =
        rangeErr (portInt c m) p.toNat ∧
      (unpacker c (intOperand c (portInt c m)) (lenOperand c (chunkLen len (bszOf p.toNat) k)).toNat u.p).lenErr =
        lenErr (portInt c m) (chunkLen len (bszOf p.toNat) k) := by
  have hsized : 1 ≤ bszOf p.toNat := (le_bszOf_iff le_rfl _).2 hp
  have hmax : chunkLen len (bszOf p.toNat) k ≤ c.bmax := (chunkLen_le _ _ _).trans (bszOf_le_bmax p)
  obtain ⟨-, -, rfl, -⟩ := hu
  exact unpacker_errs_operands (lt_two_pow_lw hmax) (portInt_lt c m) (chunkLen_pos hsized hk) hmax u.p

/-- UNPACK of an integer at or above the modulus raises DEC_RANGE, whatever its size (R125). -/
theorem Bcu.Runs.after_unpackOf_range (hu : u.Runs p) (hp : 256 ≤ p.toNat)
    (hk : k < blockCount len (bszOf p.toNat)) (hge : p.toNat ≤ ints.getD k 0) :
    u.after (unpackOf c ints len (bszOf p.toNat) k) = u.raise .decRange (idxOperand c k) := by
  have hsized : 1 ≤ bszOf p.toNat := (le_bszOf_iff le_rfl _).2 hp
  obtain ⟨hrange, -⟩ := hu.unpacker_unpackOf hp hk (ints.getD k 0)
  exact Bcu.unpack_of_rangeErr (hu.admits (chunkLen_pos hsized hk) (chunkLen_le _ _ _))
    (hrange.trans ((rangeErr_eq_true _ _).2 (le_portInt hge))) _

/-- UNPACK of an integer below the modulus but too long for its chunk raises LEN_OVF (R125). -/
theorem Bcu.Runs.after_unpackOf_len (hu : u.Runs p) (hp : 256 ≤ p.toNat)
    (hk : k < blockCount len (bszOf p.toNat)) (hlt : ints.getD k 0 < p.toNat)
    (hlong : 2 ^ (8 * chunkLen len (bszOf p.toNat) k) ≤ ints.getD k 0) :
    u.after (unpackOf c ints len (bszOf p.toNat) k) = u.raise .lenOvf (idxOperand c k) := by
  have hsized : 1 ≤ bszOf p.toNat := (le_bszOf_iff le_rfl _).2 hp
  obtain ⟨hrange, hlen⟩ := hu.unpacker_unpackOf hp hk (ints.getD k 0)
  rw [portInt_of_lt hlt] at hrange hlen
  rw [unpackOf, portInt_of_lt hlt]
  exact Bcu.unpack_of_lenErr (hu.admits (chunkLen_pos hsized hk) (chunkLen_le _ _ _))
    (hrange.trans ((rangeErr_eq_false _ _).2 hlt)) (hlen.trans ((lenErr_eq_true _ _).2 hlong)) _

end

variable {ints : List Nat} {p : BitVec s.cfg.pw} {len m k : Nat} {caller : Option (List Byte)}

/-- One round of the loop, up to the outputs that are then read. -/
theorem State.Stands.decodeUnpack {P : Bcu s.cfg → Prop} {H' : Harness s.cfg}
    (hs : s.Stands (H.decodeLoop (decodeJob ints p len caller m))) (hu : s.bcu.Runs p) (hp : 256 ≤ p.toNat)
    (hcount : ints.length = blockCount len (bszOf p.toNat)) (hlimit : ints.length ≤ 2 ^ s.cfg.iw)
    (hm : m < ints.length)
    (hafter : ∀ u : Bcu s.cfg, u.Runs p → P (u.after (unpackOf s.cfg ints len (bszOf p.toNat) m)) ∧
      H.decodeUnpacked (decodeJob ints p len caller m) (u.after (unpackOf s.cfg ints len (bszOf p.toNat) m)) = H') :
    s.Arrives [unpackOf s.cfg ints len (bszOf p.toNat) m] P H' := by
  have hloop : H.decodeLoop (decodeJob ints p len caller m) =
      { H with ctl := .decodeUnpack (decodeJob ints p len caller m) } := if_pos hm
  rw [hloop] at hs
  have hpresent : Harness.present { H with ctl := .decodeUnpack (decodeJob ints p len caller m) } =
      (unpackOf s.cfg ints len (bszOf p.toNat) m,
        { H with ctl := .decodeUnpackIssued (decodeJob ints p len caller m) }) := by
    rw [unpackOf, ← decodeJob_width caller hp hcount hm]
    rfl
  have hrun := hs.arrives (P := P) (H' := H') rfl nofun (by
      rw [hpresent]; exact wellFormed_unpackOf ints p len (hm.trans_le hlimit)) fun u hwaits => by
    obtain ⟨hP, hread⟩ := hafter u (hu.of_waits hwaits)
    rw [hpresent]
    exact ⟨hP, (H.decodeUnpacked_ctl _ _ _).trans hread⟩
  rwa [hpresent] at hrun

theorem State.Stands.decodeUnpack_fits (hs : s.Stands (H.decodeLoop (decodeJob ints p len caller m)))
    (hu : s.bcu.Runs p) (hp : 256 ≤ p.toNat) (hcount : ints.length = blockCount len (bszOf p.toNat))
    (hlimit : ints.length ≤ 2 ^ s.cfg.iw) (hm : m < ints.length) (hfits : BlockFits ints p.toNat len m) :
    s.Arrives [unpackOf s.cfg ints len (bszOf p.toNat) m] (·.Runs p)
      (H.decodeLoop (decodeJob ints p len caller (m + 1))) := by
  refine hs.decodeUnpack hu hp hcount hlimit hm fun u hrun => ?_
  have hk : m < blockCount len (bszOf p.toNat) := hcount ▸ hm
  have hmax : chunkLen len (bszOf p.toNat) m ≤ s.cfg.bmax := (chunkLen_le _ _ _).trans (bszOf_le_bmax p)
  rw [hrun.after_unpackOf hp hk hfits]
  refine ⟨hrun, ?_⟩
  rw [Harness.decodeUnpacked, if_neg (not_not.2 hrun.1), decodeJob_width caller hp hcount hm,
    memWrite_unpackerLanes _ _ hmax]
  exact congrArg (fun out => H.decodeLoop ⟨ints, p, len, bszOf p.toNat, m + 1, out, caller⟩) (imagesUpTo_succ ..).symm

/-- A block whose UNPACK raises an error ends DECODE with the error and the index of the block. -/
theorem State.Stands.decodeUnpack_fails {e : ErrCode} (hs : s.Stands (H.decodeLoop (decodeJob ints p len caller m)))
    (hu : s.bcu.Runs p) (hp : 256 ≤ p.toNat) (hcount : ints.length = blockCount len (bszOf p.toNat))
    (hlimit : ints.length ≤ 2 ^ s.cfg.iw) (hm : m < ints.length) (he : e ≠ .none)
    (hraise : ∀ u : Bcu s.cfg, u.Runs p →
      u.after (unpackOf s.cfg ints len (bszOf p.toNat) m) = u.raise e (idxOperand s.cfg m)) :
    s.Arrives [unpackOf s.cfg ints len (bszOf p.toNat) m] (fun _ => True) (H.returns (.fail e.code m)) := by
  refine hs.decodeUnpack hu hp hcount hlimit hm fun u hrun => ⟨trivial, ?_⟩
  have hidx : (idxOperand s.cfg m).toNat = m := Nat.mod_eq_of_lt (hm.trans_le hlimit)
  rw [hraise u hrun, Harness.decodeUnpacked, if_pos (by rwa [Bcu.raise_err, Ne, ErrCode.code_eq_none]), Bcu.raise_err,
    Bcu.raise_errIdx, hidx, Harness.decodeDone_fail]

/-! ## The whole of DECODE -/

/-- After its CFG and the UNPACKs of `m` blocks that fit, DECODE stands before block `m` with the images of the blocks
before: by induction on `m`. -/
theorem State.Stands.decode_upTo (hs : s.Stands { H with ctl := .decodeCfg ⟨ints, p, len, 0, 0, [], caller⟩ })
    (hp : 256 ≤ p.toNat) (hcount : ints.length = blockCount len (bszOf p.toNat)) (hlimit : ints.length ≤ 2 ^ s.cfg.iw)
    (hm : m ≤ ints.length) (hfits : ∀ k < m, BlockFits ints p.toNat len k) :
    s.Arrives (.cfg p.toNat :: (List.range m).map (unpackOf s.cfg ints len (bszOf p.toNat))) (·.Runs p)
      (H.decodeLoop (decodeJob ints p len caller m)) := by
  induction m with
  | zero =>
    have hcfg := hs.decodeCfg
    rw [Harness.decodeConfigured_of_ge _ _ hp, if_neg (not_not.2 hcount), if_neg (Nat.not_lt.2 hlimit)] at hcfg
    exact hcfg.mono fun u hu => hu ▸ Bcu.runs_configure hp
  | succ m ih =>
    rw [List.range_succ, List.map_append, ← List.cons_append]
    exact (ih (Nat.le_of_succ_le hm) fun k hk => hfits k (Nat.lt_succ_of_lt hk)).trans fun u r h hu hstands =>
      hstands.decodeUnpack_fits hu hp hcount hlimit hm (hfits m (Nat.lt_succ_self m))

/-- DECODE of integers that all fit ends with OK and their images. -/
theorem State.Stands.decode (hs : s.Stands { H with ctl := .decodeCfg ⟨ints, p, len, 0, 0, [], caller⟩ })
    (hp : 256 ≤ p.toNat) (hcount : ints.length = blockCount len (bszOf p.toNat)) (hlimit : ints.length ≤ 2 ^ s.cfg.iw)
    (hfits : ∀ k < ints.length, BlockFits ints p.toNat len k) :
    s.Arrives (.cfg p.toNat :: (List.range ints.length).map (unpackOf s.cfg ints len (bszOf p.toNat))) (·.Runs p)
      (H.decodeDone (decodeJob ints p len caller ints.length) (.okBytes (imageBytes ints len (bszOf p.toNat)))) := by
  have hloop := hs.decode_upTo hp hcount hlimit le_rfl hfits
  rw [Harness.decodeLoop, if_neg (by exact Nat.lt_irrefl _)] at hloop
  rwa [← imagesUpTo_blockCount, ← hcount]

/-- DECODE ends at the first block that fails: one at or above the modulus, or one too long for its chunk. -/
theorem State.Stands.decode_fails (hs : s.Stands { H with ctl := .decodeCfg ⟨ints, p, len, 0, 0, [], caller⟩ })
    (hp : 256 ≤ p.toNat) (hcount : ints.length = blockCount len (bszOf p.toNat)) (hlimit : ints.length ≤ 2 ^ s.cfg.iw)
    (hk : k < ints.length) (hfits : ∀ j < k, BlockFits ints p.toNat len j) :
    (p.toNat ≤ ints.getD k 0 →
      s.Arrives (.cfg p.toNat :: (List.range (k + 1)).map (unpackOf s.cfg ints len (bszOf p.toNat))) (fun _ => True)
        (H.returns (.fail 3 k))) ∧
    (ints.getD k 0 < p.toNat → 2 ^ (8 * chunkLen len (bszOf p.toNat) k) ≤ ints.getD k 0 →
      s.Arrives (.cfg p.toNat :: (List.range (k + 1)).map (unpackOf s.cfg ints len (bszOf p.toNat))) (fun _ => True)
        (H.returns (.fail 4 k))) := by
  have hupTo := hs.decode_upTo hp hcount hlimit hk.le hfits
  have hblock : k < blockCount len (bszOf p.toNat) := hcount ▸ hk
  rw [List.range_succ, List.map_append, ← List.cons_append]
  exact ⟨fun hge => hupTo.trans fun u r h hu hstands =>
      hstands.decodeUnpack_fails (e := .decRange) hu hp hcount hlimit hk nofun
        fun u hu => hu.after_unpackOf_range hp hblock hge,
    fun hlt hlong => hupTo.trans fun u r h hu hstands =>
      hstands.decodeUnpack_fails (e := .lenOvf) hu hp hcount hlimit hk nofun
        fun u hu => hu.after_unpackOf_len hp hblock hlt hlong⟩

/-- DECODE of another number of integers than there are blocks ends after its CFG (R151). -/
theorem State.Stands.decode_blockCount {d : DecodeJob s.cfg} (hs : s.Stands { H with ctl := .decodeCfg d })
    (hp : 256 ≤ d.p.toNat) (hcount : d.ints.length ≠ blockCount d.len (bszOf d.p.toNat)) :
    s.Arrives [.cfg d.p.toNat] (fun _ => True) (H.returns (.fail 8 0)) := by
  have hcfg := hs.decodeCfg
  rw [Harness.decodeConfigured_of_ge _ _ hp, if_pos hcount] at hcfg
  exact hcfg.mono fun _ _ => trivial

/-- DECODE of more blocks than the index can name ends after its CFG (R143). -/
theorem State.Stands.decode_refused {d : DecodeJob s.cfg} (hs : s.Stands { H with ctl := .decodeCfg d })
    (hp : 256 ≤ d.p.toNat) (hcount : d.ints.length = blockCount d.len (bszOf d.p.toNat))
    (hlimit : 2 ^ s.cfg.iw < d.ints.length) :
    s.Arrives [.cfg d.p.toNat] (fun _ => True) (H.returns .refused) := by
  have hcfg := hs.decodeCfg
  rw [Harness.decodeConfigured_of_ge _ _ hp, if_neg (not_not.2 hcount), if_pos hlimit] at hcfg
  exact hcfg.mono fun _ _ => trivial

/-- DECODE with a modulus below 256 ends after its CFG (R150). -/
theorem State.Stands.decode_config {d : DecodeJob s.cfg} (hs : s.Stands { H with ctl := .decodeCfg d })
    (hp : d.p.toNat < 256) : s.Arrives [.cfg d.p.toNat] (fun _ => True) (H.returns (.fail 1 0)) := by
  have hcfg := hs.decodeCfg
  rw [Harness.decodeConfigured_of_lt _ _ hp] at hcfg
  exact hcfg.mono fun _ _ => trivial

end Sys2Proof.Machine
end

section
/-! PROOFS. DECODE, and the round trip of the codec (43_round_trip_verifier.md R150, R151, R159). -/

namespace Sys2Proof.Proofs

open Sys2Proof Sys2Proof.Machine

/-- Settles O45: DECODE ends with the images of the integers (`State.Stands.decode`), which fill the buffer
(`imageBytes_length`). -/
theorem decodeReturnsImages : Obligations.DecodeReturnsImages := by
  intro s ints p len hcalls hp hcount hlimit hfits
  have hrun := State.Stands.decode (H := s.calling) hcalls.stands hp hcount hlimit
    fun k hk => blockFits_of_width hp hcount hk (hfits k hk)
  refine ⟨_, State.Arrives.returns hrun rfl, imageBytes_length ((le_bszOf_iff le_rfl _).2 hp) ints, ?_⟩
  rw [imageBytes, ← hcount]
  refine congrArg List.flatten (List.map_congr_left fun k hk => ?_)
  rw [blockWidth_length hp hcount (List.mem_range.1 hk)]

/-- Settles O46: the requests of a DECODE that ends with OK or at its first block that fails. -/
theorem decodePresentsOneUnpackPerBlock : Obligations.DecodePresentsOneUnpackPerBlock := by
  intro s ints p len m hcalls htodo hp hcount hlimit hm hfits hbad
  have hblocks : ∀ k < m, BlockFits ints p.toNat len k :=
    fun k hk => blockFits_of_width hp hcount (hk.trans_le hm) (hfits k hk)
  have hnil : s.calling.todo = [] := congrArg List.tail htodo
  have hops : (List.range (min (m + 1) ints.length)).map (unpackOf s.cfg ints len (bszOf p.toNat)) =
      (List.range (min (m + 1) ints.length)).map fun k =>
        .unpack k (blockWidth len (bszOf p.toNat) ints.length k) (min (ints.getD k 0) (2 ^ s.cfg.pw - 1)) := by
    refine List.map_congr_left fun k hk => ?_
    rw [blockWidth_length hp hcount ((List.mem_range.1 hk).trans_le (Nat.min_le_right _ _))]
    rfl
  rw [← hops]
  rcases Nat.lt_or_eq_of_le hm with hlt | rfl
  · rw [Nat.min_eq_left hlt]
    obtain ⟨hrange, hlen⟩ := State.Stands.decode_fails (H := s.calling) hcalls.stands hp hcount hlimit hlt hblocks
    rcases Nat.lt_or_ge (ints.getD m 0) p.toNat with hbelow | hge
    · have hlong := (hbad hlt).resolve_left (Nat.not_le.2 hbelow)
      rw [blockWidth_length hp hcount hlt] at hlong
      exact State.Arrives.ends (hlen hbelow hlong) hnil
    · exact State.Arrives.ends (hrange hge) hnil
  · rw [Nat.min_eq_right (Nat.le_succ _)]
    exact State.Arrives.ends (State.Stands.decode (H := s.calling) hcalls.stands hp hcount hlimit hblocks) hnil

/-- Settles O47: the block-count check accepts the block count alone (`blockCountOk_iff`). -/
theorem wrongBlockCountFails : Obligations.WrongBlockCountFails := by
  intro s ints p len hcalls hp hcount
  have hsized : 1 ≤ bszOf p.toNat := (le_bszOf_iff le_rfl _).2 hp
  rw [Nat.add_sub_assoc hsized] at hcount
  exact State.Arrives.returns (State.Stands.decode_blockCount (H := s.calling) hcalls.stands hp hcount) rfl

/-- Settles O48: DECODE ends at its first block that fails (`State.Stands.decode_fails`). -/
theorem decodeReportsFirstBadBlock : Obligations.DecodeReportsFirstBadBlock := by
  intro s ints p len k hcalls hp hcount hlimit hk hfits
  obtain ⟨hrange, hlen⟩ := State.Stands.decode_fails (H := s.calling) hcalls.stands hp hcount hlimit hk
    fun j hj => blockFits_of_width hp hcount (hj.trans hk) (hfits j hj)
  rw [blockWidth_length hp hcount hk]
  exact ⟨fun hge => State.Arrives.returns (hrange hge) rfl, fun hlt hlong => State.Arrives.returns (hlen hlt hlong) rfl⟩

/-- Settles O50: DECODE of the integers of ENCODE ends with their images (`State.Stands.decode`), which are the buffer
(`imageBytes_blockInts`). -/
theorem codecRoundTrip : Obligations.CodecRoundTrip := by
  intro s buf p hcalls hp hcount
  have hsized : 1 ≤ bszOf p.toNat := (le_bszOf_iff le_rfl _).2 hp
  refine ⟨_, State.Arrives.returns (State.Stands.encode (H := s.calling) hcalls.stands hp hcount) rfl,
    fun u r h hdecode => ?_⟩
  rw [blockWords_toNat buf hp] at hdecode
  have hrun := State.Stands.decode (H := State.calling ⟨s.cfg, u, r, h⟩) hdecode.stands hp (blockInts_length buf _)
    (by rwa [blockInts_length]) (blockFits_blockInts hp)
  have hret := State.Arrives.returns hrun rfl
  rwa [imageBytes_blockInts hsized] at hret

end Sys2Proof.Proofs
end

section
/-! SUPPORT. The run of VERIFY up to its DECODE (R152, R153, R156, R157): the calls of the cipher, one in a cycle, with
ENCODE and the storing of the Bundle between them. -/

namespace Sys2Proof.Machine

variable {s : State} {H H' : Harness s.cfg} {ops : List Instr} {P Q : Bcu s.cfg → Prop}

/-! ## Cycles that present NOP -/

theorem Harness.readOutputs_of_not_issued {c : Params} {h : Harness c} (hi : h.ctl.issued = false) (u : Bcu c) :
    h.readOutputs u = h := by
  unfold Harness.readOutputs
  split <;> simp_all [Ctl.issued]

/-- A cycle in which the harness calls the cipher or its storage. -/
theorem State.Stands.arrives_nop (hs : s.Stands H) (hi : H.ctl.issued = false) (hn : H.ctl ≠ .idle)
    (hpresent : H.present = (.nop, H')) (hi' : H'.ctl.issued = false) : s.Arrives [] (fun _ => True) H' := by
  have hrun := hs.arrives (P := fun _ => True) (H' := H') hi hn (by rw [hpresent]; rfl) fun u _ => by
    rw [hpresent]
    exact ⟨trivial, Harness.readOutputs_of_not_issued hi' _⟩
  rwa [hpresent] at hrun

theorem State.Arrives.trans_nop (ha : s.Arrives ops P H)
    (hb : ∀ u r h, P u → State.Stands ⟨s.cfg, u, r, h⟩ H → State.Arrives ⟨s.cfg, u, r, h⟩ [] Q H') :
    s.Arrives ops Q H' :=
  List.append_nil ops ▸ ha.trans hb

variable {v : VerifyArgs s.cfg} {key : Keys}

/-! ## keygen -/

/-- The oracle after keygen has answered `key`. -/
def Oracle.afterKeygen {c : Params} (o : Oracle c) (v : VerifyArgs c) (key : Keys) : Oracle c :=
  { o with keys := o.keys.tail, calls := o.calls ++ [.keygen v.p v.a v.p0 key] }

theorem State.Stands.keygen {keys : List Keys} (hs : s.Stands { H with ctl := .keygen v })
    (hkeys : H.oracle.keys = key :: keys) :
    s.Arrives [] (fun _ => True) { H with
      ctl := .encodeCfg ⟨v.src, v.p, 0, 0, [], some (v, key)⟩, oracle := H.oracle.afterKeygen v key } :=
  hs.arrives_nop rfl nofun (by simp [Harness.present, Harness.callKeygen, hkeys, Oracle.afterKeygen]) rfl

/-! ## encrypt and decrypt -/

/-- The call of encrypt for one block of VERIFY (R157 step 3). -/
def encryptCall {c : Params} (v : VerifyArgs c) (key : Keys) (m : BitVec c.pw) (r : Record) : CipherCall c :=
  .encrypt m key.q key.kpriv v.p v.a v.p0 r

/-- The call of decrypt for one record of VERIFY (R157 step 6). -/
def decryptCall {c : Params} (v : VerifyArgs c) (key : Keys) (r : Record) (m : Nat) : CipherCall c :=
  .decrypt r.c1 r.c2 key.kpriv r.r v.a v.p m

/-- The oracle after it has encrypted the first `m` integers. -/
def Oracle.afterEncrypt {c : Params} (o : Oracle c) (v : VerifyArgs c) (key : Keys) (ints : List (BitVec c.pw))
    (m : Nat) : Oracle c :=
  { o with
    records := o.records.drop m
    calls := o.calls ++ List.zipWith (encryptCall v key) (ints.take m) (o.records.take m) }

/-- The oracle after it has decrypted the first `m` records. -/
def Oracle.afterDecrypt {c : Params} (o : Oracle c) (v : VerifyArgs c) (key : Keys) (records : List Record)
    (m : Nat) : Oracle c :=
  { o with
    plains := o.plains.drop m
    calls := o.calls ++ List.zipWith (decryptCall v key) (records.take m) (o.plains.take m) }

theorem zipWith_take_succ {α β γ : Type} (f : α → β → γ) {as : List α} {bs : List β} {m : Nat}
    (ha : m < as.length) (hb : m < bs.length) :
    List.zipWith f (as.take (m + 1)) (bs.take (m + 1)) =
      List.zipWith f (as.take m) (bs.take m) ++ [f as[m] bs[m]] := by
  rw [List.take_succ_eq_append_getElem ha, List.take_succ_eq_append_getElem hb,
    List.zipWith_append (by simp [ha.le, hb.le])]
  rfl

theorem Oracle.afterEncrypt_succ {c : Params} (o : Oracle c) (v : VerifyArgs c) (key : Keys)
    {ints : List (BitVec c.pw)} {m : Nat} (hm : m < ints.length) (hr : m < o.records.length) :
    o.afterEncrypt v key ints (m + 1) = { o with
      records := o.records.drop (m + 1)
      calls := (o.afterEncrypt v key ints m).calls ++ [encryptCall v key ints[m] o.records[m]] } := by
  simp only [Oracle.afterEncrypt, zipWith_take_succ _ hm hr, List.append_assoc]

theorem Oracle.afterDecrypt_succ {c : Params} (o : Oracle c) (v : VerifyArgs c) (key : Keys) {records : List Record}
    {m : Nat} (hm : m < records.length) (hr : m < o.plains.length) :
    o.afterDecrypt v key records (m + 1) = { o with
      plains := o.plains.drop (m + 1)
      calls := (o.afterDecrypt v key records m).calls ++ [decryptCall v key records[m] o.plains[m]] } := by
  simp only [Oracle.afterDecrypt, zipWith_take_succ _ hm hr, List.append_assoc]

/-- The answers of encrypt are taken in block order, by induction on the number of calls. -/
theorem State.Stands.encryptUpTo {ints : List (BitVec s.cfg.pw)} (hs : s.Stands { H with ctl := .encrypt v key ints [] })
    (hrecords : ints.length ≤ H.oracle.records.length) {m : Nat} (hm : m ≤ ints.length) :
    s.Arrives [] (fun _ => True) { H with
      ctl := .encrypt v key ints (H.oracle.records.take m), oracle := H.oracle.afterEncrypt v key ints m } := by
  induction m with
  | zero =>
    have hstart : H.oracle.afterEncrypt v key ints 0 = H.oracle := by simp [Oracle.afterEncrypt]
    rw [hstart]
    exact hs.arrives_refl trivial
  | succ m ih =>
    have hr : m < H.oracle.records.length := Nat.lt_of_lt_of_le hm hrecords
    refine (ih (Nat.le_of_succ_le hm)).trans_nop fun u r h _ hstands =>
      hstands.arrives_nop rfl nofun ?_ rfl
    have hlen : (H.oracle.records.take m).length = m := by simp [hr.le]
    have hint : ints[m]? = some ints[m] := List.getElem?_eq_getElem hm
    have hnext : (H.oracle.afterEncrypt v key ints m).records = H.oracle.records[m] :: H.oracle.records.drop (m + 1) :=
      List.drop_eq_getElem_cons hr
    rw [Oracle.afterEncrypt_succ _ v key hm hr, List.take_succ_eq_append_getElem hr]
    simp only [Harness.present, Harness.callEncrypt, hlen, hint, hnext]
    rfl

/-- The answers of decrypt are taken in block order, by induction on the number of calls. -/
theorem State.Stands.decryptUpTo {b : Bundle s.cfg} (hs : s.Stands { H with ctl := .decrypt v key b [] })
    (hp : b.p = v.p) (ha : b.a = v.a) (hplains : b.records.length ≤ H.oracle.plains.length) {m : Nat}
    (hm : m ≤ b.records.length) :
    s.Arrives [] (fun _ => True) { H with
      ctl := .decrypt v key b (H.oracle.plains.take m), oracle := H.oracle.afterDecrypt v key b.records m } := by
  induction m with
  | zero =>
    have hstart : H.oracle.afterDecrypt v key b.records 0 = H.oracle := by simp [Oracle.afterDecrypt]
    rw [hstart]
    exact hs.arrives_refl trivial
  | succ m ih =>
    have hr : m < H.oracle.plains.length := Nat.lt_of_lt_of_le hm hplains
    refine (ih (Nat.le_of_succ_le hm)).trans_nop fun u r h _ hstands =>
      hstands.arrives_nop rfl nofun ?_ rfl
    have hlen : (H.oracle.plains.take m).length = m := by simp [hr.le]
    have hrecord : b.records[m]? = some b.records[m] := List.getElem?_eq_getElem hm
    have hnext : (H.oracle.afterDecrypt v key b.records m).plains = H.oracle.plains[m] :: H.oracle.plains.drop (m + 1) :=
      List.drop_eq_getElem_cons hr
    rw [Oracle.afterDecrypt_succ _ v key hm hr, List.take_succ_eq_append_getElem hr]
    simp only [Harness.present, Harness.callDecrypt, hlen, hrecord, hnext, hp, ha]
    rfl

/-! ## The Bundle -/

/-- With a record for every integer the Bundle is put together, stored and read back (R157 steps 4 and 5). -/
theorem State.Stands.bundle {ints : List (BitVec s.cfg.pw)} {records : List Record}
    (hs : s.Stands { H with ctl := .encrypt v key ints records }) (hlen : ints.length ≤ records.length) :
    s.Arrives [] (fun _ => True) { H with
      ctl := .decrypt v key (bundleOf v key records) [], storage := some (bundleOf v key records) } := by
  have hpersist : s.Arrives [] (fun _ => True) { H with ctl := .persist v key (bundleOf v key records) } :=
    hs.arrives_nop rfl nofun (Harness.present_encrypted rfl hlen) rfl
  have hreload : s.Arrives [] (fun _ => True) { H with
      ctl := .reload v key, storage := some (bundleOf v key records) } :=
    hpersist.trans_nop fun u r h _ hstands => hstands.arrives_nop rfl nofun rfl rfl
  exact hreload.trans_nop fun u r h _ hstands => hstands.arrives_nop rfl nofun rfl rfl

/-! ## VERIFY up to its DECODE -/

/-- The oracle after the calls of a VERIFY that it answered with these records and integers. -/
def Oracle.afterVerify {c : Params} (o : Oracle c) (v : VerifyArgs c) (key : Keys) (ints : List (BitVec c.pw))
    (records : List Record) (plains : List Nat) : Oracle c :=
  ⟨o.keys.tail, o.records.drop records.length, o.plains.drop plains.length,
    o.calls ++ verifyCalls v key ints records plains⟩

/-- The harness after the calls of a VERIFY, with its Bundle stored. -/
def Harness.afterVerify {c : Params} (h : Harness c) (v : VerifyArgs c) (key : Keys) (ints : List (BitVec c.pw))
    (records : List Record) (plains : List Nat) : Harness c :=
  { h with oracle := h.oracle.afterVerify v key ints records plains, storage := some (bundleOf v key records) }

/-- The requests of the ENCODE of a VERIFY. -/
def encodeRequests (c : Params) (buf : List Byte) (p : BitVec c.pw) : List Instr :=
  .cfg p.toNat :: (List.range (blockCount buf.length (bszOf p.toNat))).map (packOf c buf (bszOf p.toNat))

/-- The integers of all blocks of a buffer. -/
def encodedInts (c : Params) (buf : List Byte) (p : BitVec c.pw) : List (BitVec c.pw) :=
  blockWords c buf (bszOf p.toNat) (blockCount buf.length (bszOf p.toNat))

/-- The cipher answers VERIFY's calls with this key and, one for each block, these records and integers. -/
structure Oracle.Answers {c : Params} (o : Oracle c) (v : VerifyArgs c) (key : Keys) (records : List Record)
    (plains : List Nat) : Prop where
  keys_eq : ∃ keys, o.keys = key :: keys
  records_eq : ∃ more, o.records = records ++ more
  records_length : records.length = blockCount v.src.length (bszOf v.p.toNat)
  plains_eq : ∃ more, o.plains = plains ++ more
  plains_length : plains.length = blockCount v.src.length (bszOf v.p.toNat)

/-- A cipher with enough answers answers with the first of them. -/
theorem Oracle.answers_take {c : Params} {o : Oracle c} {v : VerifyArgs c} {key : Keys} {keys : List Keys}
    (hkeys : o.keys = key :: keys) (hrecords : blockCount v.src.length (bszOf v.p.toNat) ≤ o.records.length)
    (hplains : blockCount v.src.length (bszOf v.p.toNat) ≤ o.plains.length) :
    o.Answers v key (o.records.take (blockCount v.src.length (bszOf v.p.toNat)))
      (o.plains.take (blockCount v.src.length (bszOf v.p.toNat))) :=
  ⟨⟨keys, hkeys⟩, ⟨_, (List.take_append_drop ..).symm⟩, List.length_take_of_le hrecords,
    ⟨_, (List.take_append_drop ..).symm⟩, List.length_take_of_le hplains⟩

/-- The three phases of calls make up those of VERIFY. -/
theorem Oracle.afterVerify_eq {c : Params} (o : Oracle c) (v : VerifyArgs c) (key : Keys) {ints : List (BitVec c.pw)}
    {records : List Record} {plains : List Nat} (hints : ints.length = records.length)
    (hrtake : o.records.take records.length = records) (hptake : o.plains.take records.length = plains)
    (hlen : plains.length = records.length) :
    ((o.afterKeygen v key).afterEncrypt v key ints records.length).afterDecrypt v key records records.length =
      o.afterVerify v key ints records plains := by
  have htake : ints.take records.length = ints := List.take_of_length_le hints.le
  simp only [Oracle.afterVerify, Oracle.afterDecrypt, Oracle.afterEncrypt, Oracle.afterKeygen, htake, hrtake, hptake,
    hlen, List.take_length, List.append_assoc]
  rfl

variable {records : List Record} {plains : List Nat}

/-- VERIFY with a cipher that answers comes to have called keygen, encrypted every block, stored its Bundle and decrypted
every record, in block order. -/
theorem State.Stands.verify_decrypted (hs : s.Stands { H with ctl := .keygen v }) (hp : 256 ≤ v.p.toNat)
    (hcount : blockCount v.src.length (bszOf v.p.toNat) ≤ 2 ^ s.cfg.iw) (ho : H.oracle.Answers v key records plains) :
    s.Arrives (encodeRequests s.cfg v.src v.p) (fun _ => True)
      { H.afterVerify v key (encodedInts s.cfg v.src v.p) records plains with
        ctl := .decrypt v key (bundleOf v key records) plains } := by
  obtain ⟨⟨keys, hkeys⟩, ⟨moreRecords, hrecords⟩, hrlen, ⟨morePlains, hplains⟩, hplen⟩ := ho
  have hints : (encodedInts s.cfg v.src v.p).length = records.length := by
    simp [encodedInts, blockWords, hrlen]
  have hlen : plains.length = records.length := hplen.trans hrlen.symm
  have hrtake : H.oracle.records.take records.length = records := by rw [hrecords, List.take_left]
  have hptake : H.oracle.plains.take records.length = plains := by rw [hplains, ← hlen, List.take_left]
  have hrle : records.length ≤ H.oracle.records.length := by simp [hrecords]
  have hple : records.length ≤ H.oracle.plains.length := by simp [hplains, ← hlen]
  have hencode : s.Arrives (encodeRequests s.cfg v.src v.p) (fun _ => True) { H with
      ctl := .encrypt v key (encodedInts s.cfg v.src v.p) [], oracle := H.oracle.afterKeygen v key } :=
    (hs.keygen hkeys).trans fun u r h _ hstands =>
      (State.Stands.encode (s := ⟨s.cfg, u, r, h⟩) (H := { H with oracle := H.oracle.afterKeygen v key }) hstands hp
        hcount).mono fun _ _ => trivial
  generalize encodedInts s.cfg v.src v.p = ints at hints hencode ⊢
  have hencrypt : s.Arrives (encodeRequests s.cfg v.src v.p) (fun _ => True) { H with
      ctl := .encrypt v key ints (H.oracle.records.take records.length)
      oracle := (H.oracle.afterKeygen v key).afterEncrypt v key ints records.length } :=
    hencode.trans_nop fun u r h _ hstands =>
      State.Stands.encryptUpTo (s := ⟨s.cfg, u, r, h⟩) (H := { H with oracle := H.oracle.afterKeygen v key }) hstands
        (hints.trans_le hrle) hints.ge
  rw [hrtake] at hencrypt
  have hbundle : s.Arrives (encodeRequests s.cfg v.src v.p) (fun _ => True) { H with
      ctl := .decrypt v key (bundleOf v key records) []
      oracle := (H.oracle.afterKeygen v key).afterEncrypt v key ints records.length
      storage := some (bundleOf v key records) } :=
    hencrypt.trans_nop fun u r h _ hstands =>
      State.Stands.bundle (s := ⟨s.cfg, u, r, h⟩)
        (H := { H with oracle := (H.oracle.afterKeygen v key).afterEncrypt v key ints records.length }) hstands hints.le
  rw [Harness.afterVerify, ← Oracle.afterVerify_eq H.oracle v key hints hrtake hptake hlen, ← hptake]
  exact hbundle.trans_nop fun u r h _ hstands =>
    State.Stands.decryptUpTo (s := ⟨s.cfg, u, r, h⟩)
      (H := { H with
        oracle := (H.oracle.afterKeygen v key).afterEncrypt v key ints records.length
        storage := some (bundleOf v key records) }) hstands rfl rfl hple le_rfl

/-- The DECODE of a VERIFY (R157 step 7). -/
def verifyDecode {c : Params} (v : VerifyArgs c) (plains : List Nat) : DecodeJob c :=
  ⟨plains, v.p, v.src.length, 0, 0, [], some v.src⟩

/-- After the last record VERIFY goes on to its DECODE. -/
theorem Harness.present_decrypted {c : Params} (h : Harness c) (v : VerifyArgs c) (key : Keys)
    (hlen : records.length ≤ plains.length) :
    ({ h with ctl := .decrypt v key (bundleOf v key records) plains } : Harness c).present =
      (.nop, { h with ctl := .decodeCfg (verifyDecode v plains) }) := by
  have hnone : (bundleOf v key records).records[plains.length]? = none := List.getElem?_eq_none hlen
  simp only [Harness.present, Harness.callDecrypt, hnone]
  rfl

theorem Oracle.Answers.records_le {c : Params} {o : Oracle c} {v : VerifyArgs c} {key : Keys}
    (ho : o.Answers v key records plains) : records.length ≤ plains.length :=
  (ho.records_length.trans ho.plains_length.symm).le

theorem State.Stands.verify (hs : s.Stands { H with ctl := .keygen v }) (hp : 256 ≤ v.p.toNat)
    (hcount : blockCount v.src.length (bszOf v.p.toNat) ≤ 2 ^ s.cfg.iw) (ho : H.oracle.Answers v key records plains) :
    s.Arrives (encodeRequests s.cfg v.src v.p) (fun _ => True)
      { H.afterVerify v key (encodedInts s.cfg v.src v.p) records plains with
        ctl := .decodeCfg (verifyDecode v plains) } :=
  (hs.verify_decrypted hp hcount ho).trans_nop fun _ _ _ _ hstands =>
    hstands.arrives_nop rfl nofun (Harness.present_decrypted _ v key ho.records_le) rfl

/-! ## VERIFY from its DECODE on -/

/-- The requests of the DECODE of a VERIFY, up to its first `m` blocks. -/
def decodeRequests {c : Params} (v : VerifyArgs c) (plains : List Nat) (m : Nat) : List Instr :=
  .cfg v.p.toNat :: (List.range m).map (unpackOf c plains v.src.length (bszOf v.p.toNat))

/-- Where all decrypted integers fit their blocks, VERIFY compares their images with its source (R157 step 8). -/
theorem State.Stands.verify_compares (hs : s.Stands { H with ctl := .keygen v }) (hp : 256 ≤ v.p.toNat)
    (hcount : blockCount v.src.length (bszOf v.p.toNat) ≤ 2 ^ s.cfg.iw) (ho : H.oracle.Answers v key records plains)
    (hfits : ∀ k < plains.length, BlockFits plains v.p.toNat v.src.length k) :
    s.Arrives (encodeRequests s.cfg v.src v.p ++ decodeRequests v plains plains.length) (fun _ => True)
      ((H.afterVerify v key (encodedInts s.cfg v.src v.p) records plains).returns
        (compareBuffers (imageBytes plains v.src.length (bszOf v.p.toNat)) v.src)) :=
  (hs.verify hp hcount ho).trans fun u r h _ hstands =>
    (State.Stands.decode (s := ⟨s.cfg, u, r, h⟩)
      (H := H.afterVerify v key (encodedInts s.cfg v.src v.p) records plains) hstands hp ho.plains_length
      (ho.plains_length.trans_le hcount) hfits).mono fun _ _ => trivial

/-- VERIFY ends at the first decrypted integer that does not fit its block (R157 step 7). -/
theorem State.Stands.verify_fails {k : Nat} (hs : s.Stands { H with ctl := .keygen v }) (hp : 256 ≤ v.p.toNat)
    (hcount : blockCount v.src.length (bszOf v.p.toNat) ≤ 2 ^ s.cfg.iw) (ho : H.oracle.Answers v key records plains)
    (hk : k < plains.length) (hfits : ∀ j < k, BlockFits plains v.p.toNat v.src.length j) :
    (v.p.toNat ≤ plains.getD k 0 →
      s.Arrives (encodeRequests s.cfg v.src v.p ++ decodeRequests v plains (k + 1)) (fun _ => True)
        ((H.afterVerify v key (encodedInts s.cfg v.src v.p) records plains).returns (.fail 3 k))) ∧
    (plains.getD k 0 < v.p.toNat → 2 ^ (8 * chunkLen v.src.length (bszOf v.p.toNat) k) ≤ plains.getD k 0 →
      s.Arrives (encodeRequests s.cfg v.src v.p ++ decodeRequests v plains (k + 1)) (fun _ => True)
        ((H.afterVerify v key (encodedInts s.cfg v.src v.p) records plains).returns (.fail 4 k))) := by
  have hdecode := fun u r h hstands => State.Stands.decode_fails (s := ⟨s.cfg, u, r, h⟩)
    (H := H.afterVerify v key (encodedInts s.cfg v.src v.p) records plains) (caller := some v.src) hstands hp
    ho.plains_length (ho.plains_length.trans_le hcount) hk hfits
  exact ⟨fun hge => (hs.verify hp hcount ho).trans fun u r h _ hstands => (hdecode u r h hstands).1 hge,
    fun hlt hlong => (hs.verify hp hcount ho).trans fun u r h _ hstands => (hdecode u r h hstands).2 hlt hlong⟩

end Sys2Proof.Machine
end

section
/-! SUPPORT. Where the images of other integers differ from a buffer (R158, R160). -/

namespace Sys2Proof.Machine

variable {b : Nat} {ints : List Nat} {buf : List Byte}

/-- A byte of the images that differs from the buffer lies in a block whose integer differs. -/
theorem block_ne_of_byte_ne (hb : 1 ≤ b) {j : Nat} (hj : j < buf.length)
    (hne : (imageBytes ints buf.length b).getD j 0 ≠ buf.getD j 0) :
    ints.getD (j / b) 0 ≠ blockInt buf b (j / b) := by
  intro heq
  rw [imageBytes_getD hb ints hj, heq, byteBe_blockInt hb buf hj] at hne
  exact hne rfl

/-- In a block whose integer fits and differs, some byte differs: otherwise both integers were the value of the same
bytes. -/
theorem exists_byte_ne_of_block_ne (hb : 1 ≤ b) {k : Nat}
    (hfits : ints.getD k 0 < 2 ^ (8 * chunkLen buf.length b k)) (hne : ints.getD k 0 ≠ blockInt buf b k) :
    ∃ i < buf.length, i / b = k ∧ (imageBytes ints buf.length b).getD i 0 ≠ buf.getD i 0 := by
  by_contra hall
  push Not at hall
  refine hne ?_
  rw [← pow_256] at hfits
  rw [blockInt_eq, ← Nat.mod_eq_of_lt hfits, ← be_byteBe]
  refine be_congr fun i hi => ?_
  have hlt : k * b + i < buf.length := by rw [chunkLen] at hi; omega
  have hib : i < b := hi.trans_le (chunkLen_le _ _ _)
  have hdiv : (k * b + i) / b = k := by
    rw [Nat.mul_comm, Nat.mul_add_div hb, Nat.div_eq_of_lt hib, Nat.add_zero]
  have hmod : (k * b + i) % b = i := by rw [Nat.mul_comm, Nat.mul_add_mod, Nat.mod_eq_of_lt hib]
  have hbyte := hall (k * b + i) hlt hdiv
  rwa [imageBytes_getD hb ints hlt, hdiv, hmod] at hbyte

end Sys2Proof.Machine
end

section
/-! PROOFS. VERIFY (43_round_trip_verifier.md R152, R153, R156 to R158, R160), and the three procedures where their run
ends after its CFG (R141, R143, R150). -/

namespace Sys2Proof.Proofs

open Sys2Proof Sys2Proof.Machine

/-- Settles O42: each procedure ends after its CFG; before it VERIFY has called keygen. -/
theorem smallModulusFailsConfig : Obligations.SmallModulusFailsConfig := by
  intro s
  refine ⟨fun p buf hp hcalls => ?_, fun p ints len hp hcalls => ?_, fun v key keys hp hcalls hkeys => ?_⟩
  · exact State.Arrives.returns (State.Stands.encode_config (H := s.calling) (e := ⟨buf, p, 0, 0, [], none⟩)
      hcalls.stands hp) rfl
  · exact State.Arrives.returns (State.Stands.decode_config (H := s.calling) (d := ⟨ints, p, len, 0, 0, [], none⟩)
      hcalls.stands hp) rfl
  · have hrun : s.Arrives [.cfg v.p.toNat] (fun _ => True)
        (Harness.returns { s.calling with oracle := s.harness.oracle.afterKeygen v key } (.fail 1 0)) :=
      (State.Stands.keygen (H := s.calling) hcalls.stands hkeys).trans fun u r h _ hstands =>
        State.Stands.encode_config (s := ⟨s.cfg, u, r, h⟩)
          (H := { s.calling with oracle := s.harness.oracle.afterKeygen v key }) hstands hp
    exact State.Arrives.returnsAfterCalls hrun rfl rfl rfl

/-- Settles O49: each procedure ends after its CFG, and before it VERIFY has called keygen in an idle cycle; a run that
ends presents nothing more (`State.Arrives.presents_only`). -/
theorem tooManyBlocksRefused : Obligations.TooManyBlocksRefused := by
  intro s
  refine ⟨fun p buf hp hcalls htodo hcount => ?_, fun p ints len hp hcalls htodo hcount hlimit => ?_,
    fun v key keys hp hcalls htodo hkeys hcount => ?_⟩
  · have hrun := State.Stands.encode_refused (H := s.calling) (e := ⟨buf, p, 0, 0, [], none⟩) hcalls.stands hp hcount
    exact ⟨State.Arrives.returns hrun rfl, fun n i hi =>
      (State.Arrives.presents_only hrun (congrArg List.tail htodo) hi).imp_right List.mem_singleton.1⟩
  · have hrun := State.Stands.decode_refused (H := s.calling) (d := ⟨ints, p, len, 0, 0, [], none⟩) hcalls.stands hp
      hcount hlimit
    exact ⟨State.Arrives.returns hrun rfl, fun n i hi =>
      (State.Arrives.presents_only hrun (congrArg List.tail htodo) hi).imp_right List.mem_singleton.1⟩
  · have hrun : s.Arrives [.cfg v.p.toNat] (fun _ => True)
        (Harness.returns { s.calling with oracle := s.harness.oracle.afterKeygen v key } .refused) :=
      (State.Stands.keygen (H := s.calling) hcalls.stands hkeys).trans fun u r h _ hstands =>
        State.Stands.encode_refused (s := ⟨s.cfg, u, r, h⟩)
          (H := { s.calling with oracle := s.harness.oracle.afterKeygen v key }) hstands hp hcount
    exact ⟨State.Arrives.returnsAfterCalls hrun rfl rfl rfl, fun n i hi =>
      (State.Arrives.presents_only hrun (congrArg List.tail htodo) hi).imp_right List.mem_singleton.1⟩

/-- Settles O52: the calls of `State.Stands.verify_decrypted`, and the cycle after them, in which VERIFY goes on to its
DECODE. -/
theorem verifyCallsCipherByIndex : Obligations.VerifyCallsCipherByIndex := by
  intro s v key keys records moreRecords plains morePlains hcalls hp hcount hkeys hrecords hrlen hplains hplen
  have answers : s.calling.oracle.Answers v key records plains :=
    ⟨⟨keys, hkeys⟩, ⟨moreRecords, hrecords⟩, hrlen, ⟨morePlains, hplains⟩, hplen⟩
  obtain ⟨n, u, r, h, hrun, -, -, hstands⟩ :=
    State.Stands.verify_decrypted (H := s.calling) hcalls.stands hp hcount answers
  obtain ⟨n', u', r', ws, -, -, hlast, -⟩ := hstands.runs rfl nofun rfl
  rw [Harness.present_decrypted _ v key answers.records_le] at hlast
  exact ⟨n + n', encodedInts s.cfg v.src v.p, _, r', _, (runFor_add n n' hrun).trans hlast,
    blockWords_toNat v.src hp, rfl, rfl, rfl⟩

/-- Settles O51: the decrypted integers are those of the source, so they fit (`blockFits_blockInts`) and their images are
the source (`imageBytes_blockInts`). -/
theorem verifyPassesWithHonestCipher : Obligations.VerifyPassesWithHonestCipher := by
  intro s v key keys records moreRecords morePlains hcalls hp hcount hkeys hrecords hrlen hplains
  have answers : s.calling.oracle.Answers v key records (blockInts v.src (bszOf v.p.toNat)) :=
    ⟨⟨keys, hkeys⟩, ⟨moreRecords, hrecords⟩, hrlen, ⟨morePlains, hplains⟩, blockInts_length v.src _⟩
  have hrun := State.Stands.verify_compares (H := s.calling) hcalls.stands hp hcount answers (blockFits_blockInts hp)
  rw [compareBuffers_of_eq (imageBytes_blockInts ((le_bszOf_iff le_rfl _).2 hp) v.src)] at hrun
  exact ⟨encodedInts s.cfg v.src v.p, blockWords_toNat v.src hp, State.Arrives.returnsAfterCalls hrun rfl rfl rfl⟩

theorem take_getD {l : List Nat} {N k : Nat} (hk : k < N) : (l.take N).getD k 0 = l.getD k 0 := by
  simp [List.getD_eq_getElem?_getD, hk]

/-- Settles O53: the DECODE of the decrypted integers ends at the first that does not fit (`State.Stands.verify_fails`). -/
theorem verifyReportsOutOfRange : Obligations.VerifyReportsOutOfRange := by
  intro s v k hcalls hp hcount hkeys hrecords hplains hk hfits
  obtain ⟨key, keys, hkeys⟩ := List.exists_cons_of_ne_nil hkeys
  have answers := Oracle.answers_take (o := s.calling.oracle) hkeys hrecords hplains
  obtain ⟨hrange, hlen⟩ := State.Stands.verify_fails hcalls.stands hp hcount answers
    (answers.plains_length.symm ▸ hk) fun j hj => by
      rw [BlockFits, take_getD (hj.trans hk)]
      exact hfits j hj
  rw [take_getD hk] at hrange hlen
  exact ⟨fun hge => (hrange hge).returns rfl, fun hlt hlong => (hlen hlt hlong).returns rfl⟩

/-- Settles O55: the images of the decrypted integers differ from the source in block `k`
(`exists_byte_ne_of_block_ne`), so the least differing offset, which the comparison reports, is in that block or before. -/
theorem verifyReportsMismatch : Obligations.VerifyReportsMismatch := by
  intro s v k hcalls hp hcount hkeys hrecords hplains hfits hk hne
  have hsized : 1 ≤ bszOf v.p.toNat := (le_bszOf_iff le_rfl _).2 hp
  obtain ⟨key, keys, hkeys⟩ := List.exists_cons_of_ne_nil hkeys
  have answers := Oracle.answers_take (o := s.calling.oracle) hkeys hrecords hplains
  have hrun := State.Stands.verify_compares hcalls.stands hp hcount answers fun j hj => by
    have hblock := answers.plains_length ▸ hj
    rw [BlockFits, take_getD hblock]
    exact hfits j hblock
  rw [imageBytes_congr fun j hj => take_getD hj] at hrun
  obtain ⟨i, hi, hik, hbyte⟩ := exists_byte_ne_of_block_ne hsized (hfits k hk).2 hne
  have hbuffers : imageBytes s.harness.oracle.plains v.src.length (bszOf v.p.toNat) ≠ v.src :=
    fun heq => hbyte (by rw [heq])
  obtain ⟨hlt, hdiff, hbelow⟩ := firstDiff_spec (imageBytes_length hsized _) hbuffers
  have hle := Nat.le_of_not_lt fun hbefore => hbyte (hbelow i hbefore)
  rw [compareBuffers_of_ne (by exact hbuffers)] at hrun
  exact ⟨_, hrun.returns rfl, hlt, hdiff, hbelow, hik ▸ Nat.div_le_div_right hle, block_ne_of_byte_ne hsized hlt hdiff⟩

end Sys2Proof.Proofs
end

section
/-! SUPPORT. What an operation does to a latched error, and where an operation latches one (R172, R174, R175). -/

namespace Sys2Proof.Machine

variable {c : Params} {u v result : Bcu c} {k : BitVec c.iw} {n : BitVec c.lw}

/-- Of the ways a block operation can end, only a raised error changes ERR (R172). -/
theorem Bcu.BlockEnds.eq_of_err_ne {ok : Prop} (h : u.BlockEnds k n ok result v) (herr : result.err = u.err)
    (hne : v.err ≠ u.err) : v = { u with err := v.err, errIdx := k, done := false } := by
  cases h with
  | refused => exact absurd rfl hne
  | raised => rfl
  | completed => exact absurd herr hne

/-- While an error is latched, every operation but CFG does what a refusal does: PACK and UNPACK are refused (R174), and
NOP clears DONE in any case (R86). -/
theorem Bcu.after_of_err (h : u.err ≠ ErrCode.none.code) {i : Instr} (hi : ∀ p, i ≠ .cfg p) : u.after i = u.refuse := by
  cases i with
  | nop => rfl
  | cfg p => exact absurd rfl (hi p)
  | pack => exact Bcu.block_of_err h _ _ _
  | unpack => exact Bcu.block_of_err h _ _ _

theorem exec_of_err {s : State} (h : s.bcu.err ≠ ErrCode.none.code) {i : Instr} (hi : ∀ p, i ≠ .cfg p) :
    exec i s = .next (s.withBcu s.bcu.refuse) := by
  rw [exec_eq_after, Bcu.after_of_err h hi]

/-- The field of the modulus may cut it (log entry 2), which does not make it larger. -/
theorem intOperand_toNat_le (c : Params) (x : Nat) : (intOperand c x).toNat ≤ x := Nat.mod_le _ _

end Sys2Proof.Machine
end

section
/-! PROOFS. The error latch (60_exceptions.md). -/

namespace Sys2Proof.Proofs

open Sys2Proof Sys2Proof.Machine

/-- Settles O28: the checks of a block operation end at the first of them (`exec_of_err`). -/
theorem latchedErrorRefusesBlocks : Obligations.LatchedErrorRefusesBlocks :=
  fun _ latched => ⟨fun _ _ _ => exec_of_err latched nofun, fun _ _ _ => exec_of_err latched nofun⟩

/-- Settles O27: a block operation that completes or is refused leaves ERR as it was, so one that changes it has raised an
error (`Bcu.BlockEnds.eq_of_err_ne`); a CFG below 256 records CONFIG by itself (`Bcu.configure_of_lt`). -/
theorem raiseWritesErrIdxAndDone : Obligations.RaiseWritesErrIdxAndDone := by
  refine ⟨fun s k n m lanes i hi => ?_, fun s p hp => ?_⟩
  · rcases hi with rfl | rfl
    · exact ⟨_, exec_pack k n lanes s, (s.bcu.pack_ends _ _ _).eq_of_err_ne rfl⟩
    · exact ⟨_, exec_unpack k n m s, (s.bcu.unpack_ends _ _ _).eq_of_err_ne rfl⟩
  · obtain ⟨-, herr, -⟩ := Bcu.configure_of_lt ((intOperand_toNat_le s.cfg p).trans_lt hp)
    exact ⟨_, exec_cfg p s, herr, rfl⟩

/-- Settles O37: with `rst` low an edge runs its request, which is no CFG, so it clears DONE and writes nothing else
(`exec_of_err`). -/
theorem firstErrorIsKept : Obligations.FirstErrorIsKept := by
  intro s t latched hstep hlow hnotCfg
  rw [step_of_request hlow, exec_of_err (s := s.sample.2) latched hnotCfg] at hstep
  obtain rfl := Host.Outcome.next.inj hstep
  exact ⟨rfl, rfl, rfl⟩

end Sys2Proof.Proofs
end

section
/-! SUPPORT and PROOFS. Reset (70_reset_and_hazards.md). -/

namespace Sys2Proof.Machine

variable {c : Params}

/-- At reset no error is latched and CFGD is 0, so of the checks of R173 the second is the one that ends a block operation;
DONE is 0 already. -/
theorem Bcu.block_reset (k : BitVec c.iw) (n : BitVec c.lw) (body : Bcu c) :
    (Bcu.reset c).block k n body = { Bcu.reset c with err := ErrCode.unconfigured.code, errIdx := k } :=
  Bcu.block_of_unconfigured rfl rfl k n body

theorem Bcu.pack_reset (k : BitVec c.iw) (n : BitVec c.lw) (d : BitVec (8 * c.bmax)) :
    (Bcu.reset c).pack k n d = { Bcu.reset c with err := ErrCode.unconfigured.code, errIdx := k } := by
  rw [Bcu.pack, Bcu.block_reset]

theorem Bcu.unpack_reset (k : BitVec c.iw) (w : BitVec c.lw) (m : BitVec c.pw) :
    (Bcu.reset c).unpack k w m = { Bcu.reset c with err := ErrCode.unconfigured.code, errIdx := k } := by
  rw [Bcu.unpack, Bcu.block_reset]

/-- What an operation makes of the registers at reset is all that it changes there (`exec_eq_after`). -/
theorem exec_resetOf {i : Instr} {u : Bcu c} (h : (Bcu.reset c).after i = u) :
    exec i (State.resetOf c) = .next { State.resetOf c with bcu := u } := by
  subst h
  exact exec_eq_after i (State.resetOf c)

end Sys2Proof.Machine

namespace Sys2Proof.Proofs

open Sys2Proof Sys2Proof.Machine

/-- Settles O30: an edge with `rst` high takes the branch of reset (`step_of_rst`), which does not decode the request. -/
theorem resetEdgeClearsRegisters : Obligations.ResetEdgeClearsRegisters :=
  fun s hrst => ⟨s.sample.2.harness, step_of_rst hrst⟩

/-- Settles O31: the invariants hold at reset (`Bcu.inv_reset`), and the checks that PACK and UNPACK share end both
(`Bcu.block_reset`). -/
theorem resetStateIsUnconfigured : Obligations.ResetStateIsUnconfigured :=
  fun c => ⟨rfl, Bcu.inv_reset c, fun _ _ _ => exec_resetOf (Bcu.pack_reset _ _ _),
    fun _ _ _ => exec_resetOf (Bcu.unpack_reset _ _ _)⟩

end Sys2Proof.Proofs
end
